-- ==== Sys2Proof/Word.lean ====
section
/-! DEFINITION. The word types of the block: buffer bytes, 32-bit values, the 64-bit scratch number
and the 128-bit command descriptor. -/

namespace Sys2Proof

/-- One element of the buffer, "unsigned 8-bit elements" (00_scope R5 `BYTE_BITS`, 10_state R11). -/
abbrev Byte := BitVec 8

/-- The value WRITE takes and READ returns (00_scope R5 `RESULT_BITS`). -/
abbrev Word := BitVec 32

/-- The scratch register seen as a number (10_state R12). -/
abbrev ScratchWord := BitVec 64

/-- A command descriptor `CMD[127:0]` (30_encoding R43). -/
abbrev Descriptor := BitVec 128

end Sys2Proof
end

