-- ==== Sys2Proof/Config.lean ====
section
/-! DEFINITION. What is fixed for one block: the constants of 00_scope R5 and the two build
parameters. No free value is needed: the spec's decisions leave no result open. -/

namespace Sys2Proof.Config

/-- Largest field width in bits; a larger request is clamped to it (00_scope R5 `FIELD_MAX`). -/
def fieldMax : Nat := 32

/-- Width of the `bitOffset` operand (00_scope R5 `OFFW`; DESIGN CHOICE, log entry 4). -/
def offBits : Nat := 32

/-- Width of the `bitWidth` operand (00_scope R5 `WIDW`; DESIGN CHOICE, log entry 4). -/
def widBits : Nat := 32

/-- Width of the buffer length (00_scope R5 `LENW`; DESIGN CHOICE, log entry 4). -/
def lenBits : Nat := 32

/-- The build parameters, "fixed at build/run time" (00_scope R5, 10_state R16, 70_reset R131).
They are no registers: no command reads or writes them. State carries them so that one model
covers every build (DESIGN CHOICE, log entry 5). -/
structure Build where
  /-- `STRICT`: true is the optional fail-fast variant (60_exceptions R116). -/
  strict : Bool := false
  /-- `HOST_BIG`: the byte order of the machine the block is built on (10_state R12). -/
  hostBig : Bool := false
  deriving DecidableEq, Repr

end Sys2Proof.Config
end

