-- ==== Sys2Proof/Syntax.lean ====
section
/-! DEFINITION. The six instructions of spec/opcode_table.json and their operands. -/

namespace Sys2Proof

/-- DataEndianness `e` (00_scope R7): the byte order of a field and the bit numbering that goes
with it (20_memory R24, R25). -/
inductive Endian where
  | little
  | big
  deriving DecidableEq, Repr

/-- One command with its operands (10_state R17). Offsets `o` and widths `w` are plain unsigned
numbers (30_encoding R46); the value `v` is a 32-bit word. A word an operation ignores
(30_encoding R47) is no operand. -/
inductive Instr where
  /-- `READ.L o, w` (41_read R81). -/
  | readL (o w : Nat)
  /-- `WRITE.L o, w, v` (42_write R91). -/
  | writeL (o w : Nat) (v : Word)
  /-- `SETBIT o` (43_setbit R101). -/
  | setbit (o : Nat)
  /-- `READ.B o, w` (41_read R82). -/
  | readB (o w : Nat)
  /-- `WRITE.B o, w, v` (42_write R92). -/
  | writeB (o w : Nat) (v : Word)
  /-- `SETBIT.R o` (43_setbit R102). -/
  | setbitR (o : Nat)
  deriving DecidableEq, Repr

end Sys2Proof
end

