-- ==== Sys2Proof/Machine/State.lean ====
section
/-! DEFINITION. The state of the machine: the host's buffer, the scratch register, the responses,
the build parameters, the operations of other instances in progress, and what the host does next.
State is plain data. -/

namespace Sys2Proof.Machine

/-- The host's buffer memory: the bytes from the start of the buffer on (20_memory R20), as
address and byte pairs, addresses strictly rising, no byte equal to what an unlisted address reads
as (`Memory.wf`, `blankByte` in Machine/Ops.lean). -/
abbrev Memory := List Host.Cell

/-- The scratch register as eight bytes, `scr[0]` at the low end of the region (10_state R12). -/
abbrev Scratch := Vector Byte 8

/-- The four status flags of a response (10_state R18, 60_exceptions R112). -/
structure Status where
  /-- The byte range reached past the end of the buffer. -/
  oob : Bool
  /-- The requested width was above 32. -/
  wtl : Bool
  /-- The requested width was 0. -/
  wz : Bool
  /-- The command word was a reserved encoding. -/
  ill : Bool
  deriving DecidableEq, Repr

/-- The response record of a command (10_state R18). -/
structure Response where
  rdata : Word
  status : Status
  deriving DecidableEq, Repr

/-- How far another instance's operation has got (20_memory R30 to R33): all reads come before all
writes, and the pending writes are fixed by what was read (10_state R19). -/
inductive Phase where
  /-- Byte addresses still to be read, and the bytes read so far. -/
  | reading (left : List Nat) (got : List Host.Cell)
  /-- Bytes still to be written. -/
  | writing (left : List Host.Cell)
  deriving DecidableEq, Repr

/-- An operation in progress on another instance of the block (20_memory R36, 60_exceptions R123):
its operands and the bytes it has read are its own (70_reset R140). -/
structure Flight where
  /-- The host's number for the instance; instances themselves have no identifiers (R123). -/
  inst : Nat
  op : Instr
  /-- The buffer length presented with the command. -/
  len : Nat
  phase : Phase
  deriving DecidableEq, Repr

/-- The response of an operation of another instance. -/
structure Answer where
  inst : Nat
  response : Response
  deriving DecidableEq, Repr

/-- One act of the host (60_exceptions R124). -/
inductive HostEvent where
  /-- The host presents a descriptor and the buffer length to the block, which performs the whole
  operation (30_encoding R42). -/
  | command (cmd : Descriptor) (len : BitVec 32)
  /-- The owner of the buffer writes one byte of it (10_state R11, 70_reset R132). -/
  | store (addr : BitVec 32) (byte : Byte)
  /-- Reset (70_reset R130, R131). -/
  | reset
  /-- The host presents a command to another instance, which starts its operation (20_memory R36). -/
  | issue (inst : Nat) (cmd : Descriptor) (len : BitVec 32)
  /-- Another instance makes one byte access, at address `addr` (20_memory R33, R37). -/
  | access (inst : Nat) (addr : Nat)
  deriving DecidableEq, Repr

/-- Why the machine stops with a fault. The block itself never faults (60_exceptions R110). -/
inductive Fault where
  /-- A byte access at or beyond the buffer's length, raised by `State.memRead`, `State.memWrite`
  and `access` in Machine/. 20_memory R34 says no operation makes one, and none does from a state
  that meets `State.Inv`. Safe: the model stops where the spec describes no access. -/
  | outsideBuffer
  deriving DecidableEq, Repr

/-- Why a step gives no meaning. -/
inductive Refusal where
  /-- An instruction without a meaning yet, raised by an arm of `exec`; no arm raises it. Safe. -/
  | notModelled (mnemonic : String)
  /-- The host presented a command to an instance whose previous operation has not responded,
  raised by `issue` in Machine/Instances.lean. 30_encoding R42 forbids it and the spec gives it no
  effect. Safe: the model stops. -/
  | instanceBusy
  deriving DecidableEq, Repr

/-- Everything the spec gives the machine; see INVENTORY.md for the rule behind each field. -/
structure State where
  /-- The buffer (10_state R11). -/
  mem : Memory
  /-- Length of the buffer presented with the current command (10_state R17, 30_encoding R42). -/
  len : Nat
  /-- The scratch register `SCR` (10_state R12). -/
  scr : Scratch
  /-- The responses produced since reset, oldest first (10_state R18, 70_reset R137). -/
  responses : List Response
  /-- Operations of other instances in progress (10_state R19, 20_memory R36). -/
  inFlight : List Flight
  /-- The responses of other instances since reset, oldest first (20_memory R36). -/
  answers : List Answer
  /-- What the host does next, oldest first (10_state R14; log entry 1). -/
  queue : List HostEvent
  /-- The build parameters (00_scope R5, 70_reset R131). -/
  build : Config.Build
  deriving DecidableEq, Repr

/-- The scratch register with all eight bytes zero (40_datapath R63). -/
def Scratch.zero : Scratch := #v[0, 0, 0, 0, 0, 0, 0, 0]

/-- The machine right after reset (70_reset R130, R131): idle, no response, the buffer as nobody
has written it, the default build. `len`, `scr` and `queue` have no value in the spec
(DESIGN CHOICE, log entries 1, 6 and 7). -/
def State.reset : State where
  mem := []
  len := 0
  scr := Scratch.zero
  responses := []
  inFlight := []
  answers := []
  queue := []
  build := {}

end Sys2Proof.Machine
end

