-- ==== Sys2Proof/Machine/Operands.lean ====
section
/-! DEFINITION. The stages of the shared datapath that look at the operands: width clamp, byte
range, span, shift amount, mask, keep mask, merge and the barrel shifter (40_datapath R60 to R71);
SETBIT's bit position (43_setbit R100). -/

namespace Sys2Proof.Machine

/-- `ceil(x / 8)` on naturals (00_scope R6). -/
def ceilBytes (x : Nat) : Nat := (x + 7) / 8

/-- The clamped width `w' = min(w, 32)` (40_datapath R60). -/
def clampWidth (w : Nat) : Nat := min w Config.fieldMax

/-- First byte of the span, clamped to the buffer (40_datapath R61). -/
def byteBegin (o len : Nat) : Nat := min (o / 8) len

/-- One past the last byte of the span, clamped to the buffer (40_datapath R61); the sum is exact
(00_scope R5). -/
def byteEnd (o w len : Nat) : Nat := min (ceilBytes (o + clampWidth w)) len

/-- The span length `n = byteEnd - byteBegin` (40_datapath R62). -/
def spanLength (o w len : Nat) : Nat := byteEnd o w len - byteBegin o len

/-- The shift amount, with the alignment correction of big data (40_datapath R67). -/
def shiftAmount (e : Endian) (o w : Nat) : Nat :=
  match e with
  | .little => o % 8
  | .big => (8 - (o + clampWidth w) % 8) % 8

/-- The mask generator, `2^w' - 1` in 64 bits (40_datapath R68). -/
def fieldMask (w : Nat) : ScratchWord := BitVec.ofNat 64 (2 ^ clampWidth w - 1)

/-- `rdata`: the right shift of the scratch value, masked and cut to 32 bits (41_read R80). -/
def extractField (e : Endian) (o w : Nat) (S : ScratchWord) : Word :=
  ((S >>> shiftAmount e o w) &&& fieldMask w).setWidth 32

/-- The keep mask, `~_64(mask << shift)` (40_datapath R70). -/
def keepMask (e : Endian) (o w : Nat) : ScratchWord := ~~~(fieldMask w <<< shiftAmount e o w)

/-- The merge: the value is cut to `w'` bits before it is shifted (40_datapath R71). -/
def mergeField (e : Endian) (o w : Nat) (v : Word) (S : ScratchWord) : ScratchWord :=
  (S &&& keepMask e o w) ||| ((v.setWidth 64 &&& fieldMask w) <<< shiftAmount e o w)

/-- The physical bit SETBIT sets: `o mod 8`, or `7 - o mod 8` with `reversedBitOrder`
(43_setbit R100). -/
def setBitPosition (reversed : Bool) (o : Nat) : Nat :=
  match reversed with
  | false => o % 8
  | true => 7 - o % 8

/-- The byte SETBIT writes back, `b | (1 << p)` (43_setbit R100). -/
def setBitByte (reversed : Bool) (o : Nat) (b : Byte) : Byte :=
  b ||| (1#8 <<< setBitPosition reversed o)

end Sys2Proof.Machine
end

