-- ==== Sys2Proof/Machine/Flags.lean ====
section
/-! DEFINITION. The status flags of a response, suppression, and the response word
(60_exceptions R112, R113, R115; 30_encoding R51). -/

namespace Sys2Proof.Machine

/-- The flags of a READ or WRITE, functions of the operands alone (60_exceptions R112). -/
def fieldStatus (o w len : Nat) : Status where
  oob := decide (ceilBytes (o + clampWidth w) > len)
  wtl := decide (w > Config.fieldMax)
  wz := decide (w = 0)
  ill := false

/-- The flags of a SETBIT (60_exceptions R112). -/
def setBitStatus (o len : Nat) : Status where
  oob := decide (o / 8 ≥ len)
  wtl := false
  wz := false
  ill := false

/-- The flags of a reserved command word (60_exceptions R115). -/
def reservedStatus : Status where
  oob := false
  wtl := false
  wz := false
  ill := true

/-- The flags of an instruction presented with a buffer of `len` bytes (60_exceptions R112). -/
def statusOf (i : Instr) (len : Nat) : Status :=
  match i with
  | .readL o w => fieldStatus o w len
  | .writeL o w _ => fieldStatus o w len
  | .setbit o => setBitStatus o len
  | .readB o w => fieldStatus o w len
  | .writeB o w _ => fieldStatus o w len
  | .setbitR o => setBitStatus o len

/-- Whether an operation is suppressed: `ILL` or `WZ`, and with `STRICT = 1` any of the four
flags (60_exceptions R113). -/
def suppressed (strict : Bool) (st : Status) : Bool :=
  if strict then st.oob || st.wtl || st.wz || st.ill else st.ill || st.wz

/-- The 36-bit response word (30_encoding R51). -/
def Response.word (r : Response) : BitVec 36 :=
  BitVec.ofBool r.status.ill ++ (BitVec.ofBool r.status.wz ++
    (BitVec.ofBool r.status.wtl ++ (BitVec.ofBool r.status.oob ++ r.rdata)))

end Sys2Proof.Machine
end

