-- ==== Sys2Proof/Machine/Ops.lean ====
section
/-! DEFINITION. The named operations over memory and the other fields of State: byte reads and
writes, the gather and scatter loops, the response, and what a host event does to the state.
Taking an exception and returning from one have no operation here: the block has no trap, saves
nothing and transfers no control (60_exceptions R110, R118, R119). -/

namespace Sys2Proof.Machine

/-- What a byte of memory that nobody has written reads as. The spec gives none: the buffer "holds
whatever the host last left there" (70_reset R131). DESIGN CHOICE, log entry 2. -/
def blankByte : Byte := 0

/-- The byte at an address. -/
def Memory.read (m : Memory) (a : Nat) : Byte :=
  match m with
  | [] => blankByte
  | (k, x) :: rest => if a = k then x else Memory.read rest a

/-- The listing of one byte: nothing where it reads as an unlisted byte does. -/
def cellOf (a : Nat) (b : Byte) : Memory := if b = blankByte then [] else [(a, b)]

/-- Writes the byte at an address and keeps the canonical form. -/
def Memory.write (m : Memory) (a : Nat) (b : Byte) : Memory :=
  match m with
  | [] => cellOf a b
  | (k, x) :: rest =>
    if a < k then cellOf a b ++ (k, x) :: rest
    else if a = k then cellOf a b ++ rest
    else (k, x) :: Memory.write rest a b

/-- Addresses rise strictly from `lo` on and no listed byte is blank. -/
def Memory.wfFrom (lo : Nat) (m : Memory) : Bool :=
  match m with
  | [] => true
  | (k, x) :: rest => decide (lo ≤ k) && decide (x ≠ blankByte) && Memory.wfFrom (k + 1) rest

/-- The canonical form: equal memories are equal lists. -/
def Memory.wf (m : Memory) : Bool := Memory.wfFrom 0 m

/-- Every listed address is below `hi`. -/
def Memory.below (hi : Nat) (m : Memory) : Bool := m.all fun c => decide (c.1 < hi)

/-- `MemRead(a, 1)`: the byte `B[a]`, none outside the buffer (00_scope R8, 20_memory R34). -/
def State.memRead (s : State) (a : Nat) : Option Byte :=
  if a < s.len then some (s.mem.read a) else none

/-- `MemWrite(a, 1, b)`: `B[a] <- b`, none outside the buffer (00_scope R8, 20_memory R34). -/
def State.memWrite (s : State) (a : Nat) (b : Byte) : Option State :=
  if a < s.len then some { s with mem := s.mem.write a b } else none

/-- Reads the `n` bytes from address `a` on, each once (20_memory R30, R31; the order, ascending
here, is open: log entry 12). -/
def State.gather (s : State) (a n : Nat) : Option (List Byte) :=
  match n with
  | 0 => some []
  | n + 1 =>
    match s.memRead a with
    | none => none
    | some b => (s.gather (a + 1) n).map (b :: ·)

/-- Writes the bytes from address `a` on, each once, also where nothing changes (20_memory R31;
the order, ascending here, is open: log entry 12). -/
def State.scatter (s : State) (a : Nat) (bytes : List Byte) : Option State :=
  match bytes with
  | [] => some s
  | b :: bs =>
    match s.memWrite a b with
    | none => none
    | some s' => s'.scatter (a + 1) bs

/-- The scratch register takes a new content (10_state R12). -/
def State.withScr (s : State) (scr : Scratch) : State := { s with scr := scr }

/-- The block produces its response (30_encoding R42, R51). -/
def State.respond (s : State) (rdata : Word) (status : Status) : State :=
  { s with responses := s.responses ++ [{ rdata := rdata, status := status }] }

/-- Another instance produces its response (20_memory R36). -/
def State.answer (s : State) (inst : Nat) (rdata : Word) (status : Status) : State :=
  { s with answers := s.answers ++ [{ inst := inst, response := { rdata := rdata, status := status } }] }

/-- The host's next act is taken off the queue (10_state R14). -/
def State.withQueue (s : State) (rest : List HostEvent) : State := { s with queue := rest }

/-- The host presents the buffer length with a command (30_encoding R42). -/
def State.present (s : State) (len : BitVec 32) : State := { s with len := len.toNat }

/-- The answer to a reserved command word: suppressed, `ILL = 1` (60_exceptions R115). -/
def State.respondReserved (s : State) : State := s.respond 0 reservedStatus

/-- The owner of the buffer writes one byte (10_state R11, 60_exceptions R124). -/
def State.hostStore (s : State) (addr : BitVec 32) (b : Byte) : State :=
  { s with mem := s.mem.write addr.toNat b }

/-- Reset: everything as after reset but the buffer, which reset does not touch, the build
parameters, which are fixed, and the host's own list of acts (70_reset R130, R131). Operations in
progress are gone: of a span in the middle of its writes, each byte is old or new as the writes
had landed (70_reset R130; log entry 14). -/
def State.resetByHost (s : State) : State :=
  { State.reset with mem := s.mem, build := s.build, queue := s.queue }

/-- The host puts a command at the head of its list, with the buffer length of the state. -/
def State.queueCommand (s : State) (cmd : Descriptor) : State :=
  { s with queue := .command cmd (BitVec.ofNat 32 s.len) :: s.queue }

end Sys2Proof.Machine
end

