-- ==== Sys2Proof/Machine/Scratch.lean ====
section
/-! DEFINITION. The scratch register and the endianness-aware multiplexer, byte by byte as the
source's steps give them, for either host byte order (10_state R12, 40_datapath R63 to R65, R72),
and the closed forms on numbers (40_datapath R66, R72). The instructions run the byte-level
stages; Laws/Scratch.lean proves them equal to the closed forms. -/

namespace Sys2Proof.Machine

/-- Where the `n` copied bytes lie in the scratch region: its low end on a little-endian host, its
high end on a big-endian one (40_datapath R64). -/
def spanBase (hostBig : Bool) (n : Nat) : Nat := if hostBig then 8 - n else 0

/-- Clear the scratch register and place the copied bytes (40_datapath R63, R64). -/
def placeBytes (hostBig : Bool) (bytes : List Byte) : Scratch :=
  let base := spanBase hostBig bytes.length
  Vector.ofFn fun k : Fin 8 =>
    if base ≤ k.val ∧ k.val < base + bytes.length then bytes.getD (k.val - base) 0 else 0

/-- Reverse the `n` copied bytes in place; the other bytes stay (40_datapath R65). -/
def reverseSpan (hostBig : Bool) (n : Nat) (scr : Scratch) : Scratch :=
  let base := spanBase hostBig n
  Vector.ofFn fun k : Fin 8 =>
    if base ≤ k.val ∧ k.val < base + n then scr.toList.getD (base + n - 1 - (k.val - base)) 0
    else scr.toList.getD k.val 0

/-- The lane reversal happens exactly where the field's byte order disagrees with the host's
(40_datapath R65). -/
def swapLanes (hostBig : Bool) (e : Endian) (n : Nat) (scr : Scratch) : Scratch :=
  if decide (e = .big) ≠ hostBig then reverseSpan hostBig n scr else scr

/-- The scratch register read as one 64-bit number in host order (10_state R12). -/
def scratchNumber (hostBig : Bool) (scr : Scratch) : ScratchWord :=
  if hostBig then
    scr[0] ++ (scr[1] ++ (scr[2] ++ (scr[3] ++ (scr[4] ++ (scr[5] ++ (scr[6] ++ scr[7]))))))
  else
    scr[7] ++ (scr[6] ++ (scr[5] ++ (scr[4] ++ (scr[3] ++ (scr[2] ++ (scr[1] ++ scr[0]))))))

/-- A 64-bit number written to the scratch register in host order (40_datapath R72). -/
def scratchOfNumber (hostBig : Bool) (x : ScratchWord) : Scratch :=
  Vector.ofFn fun k : Fin 8 =>
    if hostBig then x.extractLsb' (8 * (7 - k.val)) 8 else x.extractLsb' (8 * k.val) 8

/-- The `n` span bytes of the scratch register, in buffer order (40_datapath R72). -/
def scratchSpan (hostBig : Bool) (n : Nat) (scr : Scratch) : List Byte :=
  (List.range n).map fun i => scr.toList.getD (spanBase hostBig n + i) 0

/-- The scratch register after the gather of the span bytes: clear, place, swap
(40_datapath R63 to R65). -/
def gatherScratch (hostBig : Bool) (e : Endian) (bytes : List Byte) : Scratch :=
  swapLanes hostBig e bytes.length (placeBytes hostBig bytes)

/-- The scratch register before the scatter: the merged number in host order, swapped back
(40_datapath R72). -/
def scatterScratch (hostBig : Bool) (e : Endian) (n : Nat) (new : ScratchWord) : Scratch :=
  swapLanes hostBig e n (scratchOfNumber hostBig new)

/-- The bytes as one little-endian number (40_datapath R66, `e = little`). -/
def littleNumber : List Byte → ScratchWord
  | [] => 0
  | b :: bs => b.setWidth 64 ||| (littleNumber bs <<< 8)

/-- The closed form of the gather, `S` of the span bytes (40_datapath R66). -/
def spanNumber (e : Endian) (bytes : List Byte) : ScratchWord :=
  match e with
  | .little => littleNumber bytes
  | .big => littleNumber bytes.reverse

/-- The closed form of the scatter: byte `i` of the span from the merged number
(40_datapath R72). -/
def spanByte (e : Endian) (n : Nat) (new : ScratchWord) (i : Nat) : Byte :=
  match e with
  | .little => new.extractLsb' (8 * i) 8
  | .big => new.extractLsb' (8 * (n - 1 - i)) 8

/-- The value READ returns for the bytes of its span: gather, reinterpret, shift, mask
(41_read R80). -/
def readValue (hostBig : Bool) (e : Endian) (o w : Nat) (bytes : List Byte) : Word :=
  extractField e o w (scratchNumber hostBig (gatherScratch hostBig e bytes))

/-- The scratch register when WRITE stores its span back: gather, merge, swap back
(42_write R90). -/
def writeScratch (hostBig : Bool) (e : Endian) (o w : Nat) (v : Word) (bytes : List Byte) : Scratch :=
  scatterScratch hostBig e bytes.length
    (mergeField e o w v (scratchNumber hostBig (gatherScratch hostBig e bytes)))

/-- The bytes WRITE stores over the bytes of its span (42_write R90). -/
def writeBytes (hostBig : Bool) (e : Endian) (o w : Nat) (v : Word) (bytes : List Byte) : List Byte :=
  scratchSpan hostBig bytes.length (writeScratch hostBig e o w v bytes)

end Sys2Proof.Machine
end

