-- ==== Sys2Proof/Machine/Read.lean ====
section
/-! DEFINITION. READ.L and READ.B (41_read). -/

namespace Sys2Proof.Machine

/-- READ in the order of 40_datapath R74: flags, suppression, span, gather, shift, mask, response
(41_read R80). The scratch register keeps what the gather left in it (log entry 6). -/
def readField (e : Endian) (o w : Nat) (s : State) : Host.Outcome State Fault Refusal :=
  let status := fieldStatus o w s.len
  if suppressed s.build.strict status then .next (s.respond 0 status)
  else
    match s.gather (byteBegin o s.len) (spanLength o w s.len) with
    | none => .fault .outsideBuffer
    | some bytes =>
      .next ((s.withScr (gatherScratch s.build.hostBig e bytes)).respond
        (readValue s.build.hostBig e o w bytes) status)

/-- `READ.L o, w` (41_read R81). -/
def execReadL (o w : Nat) (s : State) : Host.Outcome State Fault Refusal :=
  readField .little o w s

/-- `READ.B o, w` (41_read R82), with a clamped tail as R86 says (log entry 9). -/
def execReadB (o w : Nat) (s : State) : Host.Outcome State Fault Refusal :=
  readField .big o w s

end Sys2Proof.Machine
end

