-- ==== Sys2Proof/Machine/SetBit.lean ====
section
/-! DEFINITION. SETBIT and SETBIT.R (43_setbit). Neither uses the scratch register. -/

namespace Sys2Proof.Machine

/-- SETBIT: dropped whole where the byte is outside the buffer, otherwise one byte read and one
byte write (43_setbit R100, R103). -/
def setSingleBit (reversed : Bool) (o : Nat) (s : State) : Host.Outcome State Fault Refusal :=
  let status := setBitStatus o s.len
  if o / 8 ≥ s.len then .next (s.respond 0 status)
  else if suppressed s.build.strict status then .next (s.respond 0 status)
  else
    match s.memRead (o / 8) with
    | none => .fault .outsideBuffer
    | some b =>
      match s.memWrite (o / 8) (setBitByte reversed o b) with
      | none => .fault .outsideBuffer
      | some s' => .next (s'.respond 0 status)

/-- `SETBIT o` (43_setbit R101). -/
def execSetbit (o : Nat) (s : State) : Host.Outcome State Fault Refusal :=
  setSingleBit false o s

/-- `SETBIT.R o` (43_setbit R102). -/
def execSetbitR (o : Nat) (s : State) : Host.Outcome State Fault Refusal :=
  setSingleBit true o s

end Sys2Proof.Machine
end

