-- ==== Sys2Proof/Machine/Write.lean ====
section
/-! DEFINITION. WRITE.L and WRITE.B (42_write). -/

namespace Sys2Proof.Machine

/-- WRITE in the order of 40_datapath R74: flags, suppression, span, gather, merge, scatter,
response with `rdata = 0` (42_write R90). The scratch register keeps what was scattered
(log entry 6). -/
def writeField (e : Endian) (o w : Nat) (v : Word) (s : State) : Host.Outcome State Fault Refusal :=
  let status := fieldStatus o w s.len
  if suppressed s.build.strict status then .next (s.respond 0 status)
  else
    match s.gather (byteBegin o s.len) (spanLength o w s.len) with
    | none => .fault .outsideBuffer
    | some bytes =>
      match s.scatter (byteBegin o s.len) (writeBytes s.build.hostBig e o w v bytes) with
      | none => .fault .outsideBuffer
      | some s' =>
        .next ((s'.withScr (writeScratch s.build.hostBig e o w v bytes)).respond 0 status)

/-- `WRITE.L o, w, v` (42_write R91). -/
def execWriteL (o w : Nat) (v : Word) (s : State) : Host.Outcome State Fault Refusal :=
  writeField .little o w v s

/-- `WRITE.B o, w, v` (42_write R92), with a clamped tail as R97 says (log entry 9). -/
def execWriteB (o w : Nat) (v : Word) (s : State) : Host.Outcome State Fault Refusal :=
  writeField .big o w v s

end Sys2Proof.Machine
end

