-- ==== Sys2Proof/Machine/Dispatch.lean ====
section
/-! DEFINITION. One arm per instruction, each a direct call of its meaning. -/

namespace Sys2Proof.Machine

/-- The effect of one command on the state that presents it (30_encoding R45). -/
def exec (i : Instr) (s : State) : Host.Outcome State Fault Refusal :=
  match i with
  | .readL o w => Sys2Proof.Machine.execReadL o w s
  | .writeL o w v => Sys2Proof.Machine.execWriteL o w v s
  | .setbit o => Sys2Proof.Machine.execSetbit o s
  | .readB o w => Sys2Proof.Machine.execReadB o w s
  | .writeB o w v => Sys2Proof.Machine.execWriteB o w v s
  | .setbitR o => Sys2Proof.Machine.execSetbitR o s

end Sys2Proof.Machine
end

