-- ==== Sys2Proof/WellFormed.lean ====
section
/-! DEFINITION. Which instructions a command can carry: every operand fits its descriptor word.
Nothing else is shut out: width 0, widths above 32 and any offset are legal operand values
(10_state R17). -/

namespace Sys2Proof

/-- `o` fits the `OFFW`-bit operand (10_state R17). -/
def offsetFits (o : Nat) : Bool := decide (o < 2 ^ Config.offBits)

/-- `w` fits the `WIDW`-bit operand (10_state R17). -/
def widthFits (w : Nat) : Bool := decide (w < 2 ^ Config.widBits)

/-- Every operand fits its word of the descriptor (10_state R17, 30_encoding R43). -/
def Instr.wf : Instr → Bool
  | .readL o w => offsetFits o && widthFits w
  | .writeL o w _ => offsetFits o && widthFits w
  | .setbit o => offsetFits o
  | .readB o w => offsetFits o && widthFits w
  | .writeB o w _ => offsetFits o && widthFits w
  | .setbitR o => offsetFits o

end Sys2Proof
end

