-- ==== Sys2Proof/Decode.lean ====
section
/-! DEFINITION. The descriptor format of 30_encoding R43 to R47: field accessors, the decoder, the
encoder, and the decoder as the host asks for it. -/

namespace Sys2Proof

/-- `OP`, bits 1:0 of `W0` (30_encoding R43). -/
def Descriptor.op (c : Descriptor) : BitVec 2 := c.extractLsb' 0 2

/-- `M`, bit 2 of `W0` (30_encoding R43, R44). -/
def Descriptor.mode (c : Descriptor) : Bool := c.getLsbD 2

/-- `RSV`, bits 31:3 of `W0` (30_encoding R43). -/
def Descriptor.rsv (c : Descriptor) : BitVec 29 := c.extractLsb' 3 29

/-- `O = W1`, bits 63:32 (30_encoding R43, R46). -/
def Descriptor.offset (c : Descriptor) : Nat := (c.extractLsb' 32 32).toNat

/-- `W = W2`, bits 95:64 (30_encoding R43, R46). -/
def Descriptor.width (c : Descriptor) : Nat := (c.extractLsb' 64 32).toNat

/-- `V = W3`, bits 127:96 (30_encoding R43, R46). -/
def Descriptor.value (c : Descriptor) : Word := c.extractLsb' 96 32

/-- Why a descriptor spells no instruction (30_encoding R49). -/
inductive DecodeError where
  /-- A bit of `RSV` is set. -/
  | reservedBits
  /-- `OP = 3`. -/
  | reservedOp
  deriving DecidableEq, Repr

/-- The decoder of 30_encoding R45: reserved if a bit of `W0[31:3]` is set or `OP = 3`, otherwise
the row with that `OP` and `M`; operands as R46 and R47 take them. -/
def decode (c : Descriptor) : Except DecodeError Instr :=
  if c.rsv ≠ 0 then .error .reservedBits
  else match c.op.toNat, c.mode with
    | 0, false => .ok (.readL c.offset c.width)
    | 1, false => .ok (.writeL c.offset c.width c.value)
    | 2, false => .ok (.setbit c.offset)
    | 0, true => .ok (.readB c.offset c.width)
    | 1, true => .ok (.writeB c.offset c.width c.value)
    | 2, true => .ok (.setbitR c.offset)
    | _, _ => .error .reservedOp

/-- The instruction's `W0` (the table of 30_encoding R45). -/
def Instr.opcode : Instr → Word
  | .readL _ _ => 0x00000000
  | .writeL _ _ _ => 0x00000001
  | .setbit _ => 0x00000002
  | .readB _ _ => 0x00000004
  | .writeB _ _ _ => 0x00000005
  | .setbitR _ => 0x00000006

/-- A descriptor from its four words, `W0` lowest (30_encoding R43). -/
def Descriptor.ofWords (w0 w1 w2 w3 : Word) : Descriptor := w3 ++ (w2 ++ (w1 ++ w0))

/-- The descriptor of an instruction, unused words encoded as 0 (30_encoding R43, R48). -/
def encode (i : Instr) : Descriptor :=
  match i with
  | .readL o w => Descriptor.ofWords i.opcode (BitVec.ofNat 32 o) (BitVec.ofNat 32 w) 0
  | .writeL o w v => Descriptor.ofWords i.opcode (BitVec.ofNat 32 o) (BitVec.ofNat 32 w) v
  | .setbit o => Descriptor.ofWords i.opcode (BitVec.ofNat 32 o) 0 0
  | .readB o w => Descriptor.ofWords i.opcode (BitVec.ofNat 32 o) (BitVec.ofNat 32 w) 0
  | .writeB o w v => Descriptor.ofWords i.opcode (BitVec.ofNat 32 o) (BitVec.ofNat 32 w) v
  | .setbitR o => Descriptor.ofWords i.opcode (BitVec.ofNat 32 o) 0 0

/-- The descriptor whose low `nbits` bits are those of `w`, every other bit 0. The command has one
length, 128 bits (30_encoding R50), and `CMD` is already numbered as the opcode table numbers it:
`W0` lowest. -/
def tableDescriptor (nbits w : Nat) : Descriptor := BitVec.ofNat 128 (w % 2 ^ nbits)

/-- What the decoder reads from a table word, none where it refuses. -/
def decodeTableWord (nbits w : Nat) : Option Instr :=
  match decode (tableDescriptor nbits w) with
  | .ok i => some i
  | .error _ => none

end Sys2Proof
end

