-- ==== Sys2Proof/Machine/Instances.lean ====
section
/-! DEFINITION. Operations of other instances of the block on the same buffer, one byte access at
a time (20_memory R30 to R33, R36, R37; 60_exceptions R123; 70_reset R133, R140). The host's list
of acts says which instance accesses which byte next, so the states a list can lead to are every
interleaving the spec admits; with no act left the operations run on to their end (70_reset R139). -/

namespace Sys2Proof.Machine

/-- The bytes READ and WRITE access: the span (20_memory R29 to R31). -/
def fieldAddresses (o w len : Nat) : List Nat :=
  (List.range (spanLength o w len)).map (byteBegin o len + ·)

/-- The byte SETBIT accesses, or none (20_memory R32). -/
def setBitAddresses (o len : Nat) : List Nat := if o / 8 < len then [o / 8] else []

/-- The byte addresses an operation accesses when it is not suppressed (20_memory R29 to R32). -/
def addressesOf (i : Instr) (len : Nat) : List Nat :=
  match i with
  | .readL o w => fieldAddresses o w len
  | .writeL o w _ => fieldAddresses o w len
  | .setbit o => setBitAddresses o len
  | .readB o w => fieldAddresses o w len
  | .writeB o w _ => fieldAddresses o w len
  | .setbitR o => setBitAddresses o len

/-- The accesses an operation makes: none when it is suppressed (60_exceptions R113). -/
def accessPlan (strict : Bool) (i : Instr) (len : Nat) : List Nat :=
  if suppressed strict (statusOf i len) then [] else addressesOf i len

/-- What `rdata` is for the bytes read (10_state R18): 0 but for READ. -/
def resultOf (hostBig : Bool) (i : Instr) (bytes : List Byte) : Word :=
  match i with
  | .readL o w => readValue hostBig .little o w bytes
  | .writeL _ _ _ => 0
  | .setbit _ => 0
  | .readB o w => readValue hostBig .big o w bytes
  | .writeB _ _ _ => 0
  | .setbitR _ => 0

/-- The bytes an operation writes over the bytes it has read; a READ writes none
(20_memory R30 to R32). -/
def writebackOf (hostBig : Bool) (i : Instr) (bytes : List Byte) : List Byte :=
  match i with
  | .readL _ _ => []
  | .writeL o w v => writeBytes hostBig .little o w v bytes
  | .setbit o => bytes.map (setBitByte false o)
  | .readB _ _ => []
  | .writeB o w v => writeBytes hostBig .big o w v bytes
  | .setbitR o => bytes.map (setBitByte true o)

/-- The byte an operation has read at an address. -/
def byteGot (got : List Host.Cell) (a : Nat) : Byte := Memory.read got a

/-- The bytes an operation has read, in the order of its addresses. -/
def bytesGot (f : Flight) (got : List Host.Cell) : List Byte :=
  (addressesOf f.op f.len).map (byteGot got)

/-- The writes an operation makes once all its bytes are read (10_state R19, 20_memory R31). -/
def pendingWrites (hostBig : Bool) (f : Flight) (got : List Host.Cell) : List Host.Cell :=
  (addressesOf f.op f.len).zip (writebackOf hostBig f.op (bytesGot f got))

/-- The operation of the instance with number `inst`, if one is in progress. -/
def State.flightOf (s : State) (inst : Nat) : Option Flight :=
  s.inFlight.find? fun f => decide (f.inst = inst)

/-- The instance's operation is no longer in progress. -/
def State.dropFlight (s : State) (inst : Nat) : State :=
  { s with inFlight := s.inFlight.filter fun f => decide (f.inst ≠ inst) }

/-- The operation of instance `f.inst` is now `f`. -/
def State.putFlight (s : State) (f : Flight) : State :=
  { s.dropFlight f.inst with inFlight := f :: (s.dropFlight f.inst).inFlight }

/-- The instance responds and is idle again (30_encoding R42, 70_reset R137). -/
def State.finish (s : State) (f : Flight) (rdata : Word) : State :=
  (s.dropFlight f.inst).answer f.inst rdata (statusOf f.op f.len)

/-- An operation with bytes left to write waits for its next access; with none it responds. -/
def settleWrites (s : State) (f : Flight) (rdata : Word) (left : List Host.Cell) : State :=
  match left with
  | [] => s.finish f rdata
  | c :: cs => s.putFlight { f with phase := .writing (c :: cs) }

/-- An operation with bytes left to read waits for its next access; with none, what it read fixes
its result and its writes (10_state R19). -/
def settleReads (s : State) (f : Flight) (left : List Nat) (got : List Host.Cell) : State :=
  match left with
  | a :: as => s.putFlight { f with phase := .reading (a :: as) got }
  | [] =>
    settleWrites s f (resultOf s.build.hostBig f.op (bytesGot f got))
      (pendingWrites s.build.hostBig f got)

/-- The host presents a command to an instance (20_memory R36). A reserved word and a suppressed
operation are answered at once (60_exceptions R113, R115), and so is one with no byte to access;
an instance whose operation has not responded takes no command (30_encoding R42). The spec does not
say whether instances on one buffer may differ in `STRICT` or `HOST_BIG`; here all have the block's
build (DESIGN CHOICE, log entry 22). -/
def issue (inst : Nat) (cmd : Descriptor) (len : BitVec 32) (s : State) :
    Host.Outcome State Fault Refusal :=
  match s.flightOf inst with
  | some _ => .refused .instanceBusy
  | none =>
    match decode cmd with
    | .error _ => .next (s.answer inst 0 reservedStatus)
    | .ok i =>
      let f : Flight := { inst := inst, op := i, len := len.toNat, phase := .reading [] [] }
      if suppressed s.build.strict (statusOf i len.toNat) then .next (s.finish f 0)
      else .next (settleReads s f (addressesOf i len.toNat) [])

/-- The instance makes its access at byte `a`: a read while reads are left, a write after that
(20_memory R31, R33). Where it has no access left at `a`, nothing happens (log entry 20). -/
def access (inst a : Nat) (s : State) : Host.Outcome State Fault Refusal :=
  match s.flightOf inst with
  | none => .next s
  | some f =>
    match f.phase with
    | .reading left got =>
      if a ∈ left then
        if a < f.len then
          .next (settleReads s f (left.erase a) ((a, s.mem.read a) :: got))
        else .fault .outsideBuffer
      else .next s
    | .writing left =>
      match left.find? fun c => decide (c.1 = a) with
      | none => .next s
      | some c =>
        if a < f.len then
          .next (settleWrites { s with mem := s.mem.write a c.2 } f 0 (left.filter fun d => decide (d.1 ≠ a)))
        else .fault .outsideBuffer

/-- With no act of the host left, the operation in front goes on with its first access left, so that
every operation ends and responds: the block has no hold or wait state (70_reset R139). Which access
comes first is open (20_memory R37; DESIGN CHOICE, log entry 23). An operation with no access left,
which no run reaches, ends. -/
def advance (s : State) : Host.Outcome State Fault Refusal :=
  match s.inFlight with
  | [] => .next s
  | f :: _ =>
    match f.phase with
    | .reading [] got => .next (settleReads s f [] got)
    | .reading (a :: _) _ => access f.inst a s
    | .writing [] => .next (s.finish f 0)
    | .writing (c :: _) => access f.inst c.1 s

/-- A list of accesses of one instance, each made in turn. -/
def accesses (inst : Nat) (addrs : List Nat) (s : State) : Host.Outcome State Fault Refusal :=
  match addrs with
  | [] => .next s
  | a :: as =>
    match access inst a s with
    | .next s' => accesses inst as s'
    | .fault r => .fault r
    | .refused r => .refused r

end Sys2Proof.Machine
end

