-- ==== Sys2Proof/Machine/Step.lean ====
section
/-! DEFINITION. One step of the machine: the host's next act takes place (30_encoding R42;
60_exceptions R124; log entry 1). -/

namespace Sys2Proof.Machine

/-- The next act on the host's list takes place; with none left the operations in progress run on
to their end (70_reset R139; log entry 23), and with none in progress the block is idle (70_reset
R130; log entry 15). A command is decoded and run as one step (30_encoding R42); a reserved word is
answered as 60_exceptions R115 says. -/
def step (s : State) : Host.Outcome State Fault Refusal :=
  match s.queue with
  | [] => advance s
  | .command cmd len :: rest =>
    match decode cmd with
    | .ok i => exec i ((s.withQueue rest).present len)
    | .error _ => .next ((s.withQueue rest).present len).respondReserved
  | .store addr b :: rest => .next ((s.withQueue rest).hostStore addr b)
  | .reset :: rest => .next (s.withQueue rest).resetByHost
  | .issue inst cmd len :: rest => issue inst cmd len (s.withQueue rest)
  | .access inst a :: rest => access inst a (s.withQueue rest)

/-- The command whose descriptor has the low `nbits` bits of `w` is the host's next act; nothing
else changes (log entry 1). -/
def State.withFetchWord (s : State) (nbits w : Nat) : State :=
  s.queueCommand (tableDescriptor nbits w)

end Sys2Proof.Machine
end

