-- ==== Sys2Proof/Machine/Numbering.lean ====
section
/-! DEFINITION. The two numberings of the bits of the buffer and the field they lay out, in which
the claims about READ, WRITE and SETBIT are stated (20_memory R21 to R26). -/

namespace Sys2Proof.Machine

/-- The physical bit of its byte that stream bit `b` is (20_memory R24, R25). -/
def physicalBit (e : Endian) (b : Nat) : Nat :=
  match e with
  | .little => b % 8
  | .big => 7 - b % 8

/-- Stream bit `b` of a buffer under a numbering (20_memory R23 to R25). -/
def streamBit (e : Endian) (m : Memory) (b : Nat) : Bool :=
  (m.read (b / 8)).getLsbD (physicalBit e b)

/-- The bit of the field's value that stream bit `o + i` holds (20_memory R26). -/
def valueBit (e : Endian) (w i : Nat) : Nat :=
  match e with
  | .little => i
  | .big => clampWidth w - 1 - i

/-- The whole field lies inside the buffer (00_scope R9, 20_memory R26). -/
abbrev fieldInRange (o w len : Nat) : Prop := o + clampWidth w ≤ 8 * len

/-- The field starts inside the buffer and runs past its end (00_scope R9, 40_datapath R62). -/
abbrev clampedTail (o w len : Nat) : Prop := o / 8 < len ∧ 8 * len < o + clampWidth w

/-- The bytes of a span of a buffer, in buffer order (40_datapath R61). -/
def spanBytes (m : Memory) (o w len : Nat) : List Byte :=
  (List.range (spanLength o w len)).map fun i => m.read (byteBegin o len + i)

end Sys2Proof.Machine
end

