-- ==== Sys2Proof/Safety.lean ====
section
/-! DEFINITION. What counts as a safe state and a safe run, in the terms the claims use. -/

namespace Sys2Proof.Machine

/-- The next state of an outcome, none where the machine stops. -/
def nextState (r : Host.Outcome State Fault Refusal) : Option State :=
  match r with
  | .next s => some s
  | .fault _ => none
  | .refused _ => none

/-- An operation in progress has an access left (70_reset R137), and every one left is inside its
buffer (20_memory R34). -/
def Flight.inside (f : Flight) : Bool :=
  decide (f.len < 2 ^ Config.lenBits) &&
    match f.phase with
    | .reading left _ => !left.isEmpty && left.all fun a => decide (a < f.len)
    | .writing left => !left.isEmpty && left.all fun c => decide (c.1 < f.len)

/-- The invariant of the machine: the buffer is in canonical form and within the address range,
the length fits its `LENW` bits, every operation in progress has accesses left, all inside its
buffer, and an instance has at most one operation in progress (20_memory R34, R35; 30_encoding R42). -/
abbrev State.Inv (s : State) : Prop :=
  s.mem.wf = true ∧ s.mem.below (2 ^ Config.lenBits) = true ∧ s.len < 2 ^ Config.lenBits ∧
    (∀ f ∈ s.inFlight, f.inside = true) ∧ (s.inFlight.map Flight.inst).Nodup

/-- The host breaks the transaction rule with its next act: it presents a command to an instance
whose operation has not responded (30_encoding R42). -/
def State.hostBreaksTurn (s : State) : Bool :=
  match s.queue with
  | .issue inst _ _ :: _ => (s.flightOf inst).isSome
  | _ => false

end Sys2Proof.Machine

/-! The formulas of the spec's rules in the words of the rules, written without the model's own
operations, for the claims to compare the model against. -/

namespace Sys2Proof.Claims

open Sys2Proof.Machine

/-- `w' = min(w, 32)` (40_datapath R60). -/
def width (w : Nat) : Nat := min w 32

/-- `byteBegin` (40_datapath R61). -/
def first (o len : Nat) : Nat := min (o / 8) len

/-- `byteEnd` (40_datapath R61). -/
def stop (o w len : Nat) : Nat := min ((o + width w + 7) / 8) len

/-- `n = byteEnd - byteBegin` (40_datapath R62). -/
def count (o w len : Nat) : Nat := stop o w len - first o len

/-- `shift` (40_datapath R67). -/
def shift (e : Endian) (o w : Nat) : Nat :=
  match e with
  | .little => o % 8
  | .big => (8 - (o + width w) % 8) % 8

/-- `S`, the span's bytes as one number (40_datapath R66). -/
def spanSum (e : Endian) (m : Memory) (o w len : Nat) : Nat :=
  match e with
  | .little =>
    ∑ i ∈ Finset.range (count o w len), (m.read (first o len + i)).toNat * 2 ^ (8 * i)
  | .big =>
    ∑ i ∈ Finset.range (count o w len),
      (m.read (first o len + i)).toNat * 2 ^ (8 * (count o w len - 1 - i))

/-- The flags of a READ or WRITE (60_exceptions R112): `OOB` iff `o + w' > 8 * len`. -/
def fieldFlags (o w len : Nat) : Status where
  oob := decide (8 * len < o + width w)
  wtl := decide (32 < w)
  wz := decide (w = 0)
  ill := false

/-- The flags of a SETBIT (60_exceptions R112). -/
def bitFlags (o len : Nat) : Status where
  oob := decide (len ≤ o / 8)
  wtl := false
  wz := false
  ill := false

/-- The flags of an instruction (60_exceptions R112). -/
def flags (i : Instr) (len : Nat) : Status :=
  match i with
  | .readL o w => fieldFlags o w len
  | .writeL o w _ => fieldFlags o w len
  | .setbit o => bitFlags o len
  | .readB o w => fieldFlags o w len
  | .writeB o w _ => fieldFlags o w len
  | .setbitR o => bitFlags o len

/-- A READ or WRITE of this field is not suppressed (60_exceptions R113): its width is not 0, and
with `STRICT = 1` its width is at most 32 and the field is in range. -/
abbrev performed (s : State) (o w : Nat) : Prop :=
  w ≠ 0 ∧ (s.build.strict = true → w ≤ 32 ∧ o + width w ≤ 8 * s.len)

/-- How many byte accesses an operation in progress can still make: the reads left and up to five
writes, or the writes left (20_memory R29 to R31). -/
def accessesLeft (f : Flight) : Nat :=
  match f.phase with
  | .reading left _ => left.length + 5
  | .writing left => left.length

/-- READ under a data endianness. -/
def read (e : Endian) (o w : Nat) : Instr :=
  match e with
  | .little => .readL o w
  | .big => .readB o w

/-- WRITE under a data endianness. -/
def write (e : Endian) (o w : Nat) (v : Word) : Instr :=
  match e with
  | .little => .writeL o w v
  | .big => .writeB o w v

/-- SETBIT under a bit numbering. -/
def setBit (e : Endian) (o : Nat) : Instr :=
  match e with
  | .little => .setbit o
  | .big => .setbitR o

/-- The response list of a state with one response more. -/
def answered (s : State) (rdata : Word) (status : Status) : List Response :=
  s.responses ++ [{ rdata := rdata, status := status }]

end Sys2Proof.Claims
end

