-- ==== Sys2Proof/Certificates/Slice0/Obligations.lean ====
section
/-! DEFINITION. The statements for the provers, from the numbered rules of spec/. Formulas under
`Claims` (Safety.lean) are the rules' own, not the model's operations. -/

open Sys2Proof Sys2Proof.Machine Sys2Proof.Claims

/-! ### Encoding -/

/-- Every well-formed instruction is decoded back from its encoding (30_encoding sections 3 to 5;
the encoding is the spec's decision D4). -/
def Obligations.DecodeEncodeRoundTrip : Prop :=
  ∀ i : Instr, i.wf = true → decode (encode i) = .ok i

/-- What the decoder reads is well formed, and encoding it gives back every bit of the descriptor
the instruction uses: `W0` and `W1` always, `W2` for READ and WRITE, `W3` for WRITE
(30_encoding sections 3 to 5, decision D4). -/
def Obligations.EncodeDecodeKeepsUsedBits : Prop :=
  ∀ (c : Descriptor) (i : Instr), decode c = .ok i →
    i.wf = true ∧
      (encode i).extractLsb' 0 64 = c.extractLsb' 0 64 ∧
      match i with
      | .readL _ _ => (encode i).extractLsb' 64 32 = c.extractLsb' 64 32
      | .writeL _ _ _ => (encode i).extractLsb' 64 64 = c.extractLsb' 64 64
      | .setbit _ => True
      | .readB _ _ => (encode i).extractLsb' 64 32 = c.extractLsb' 64 32
      | .writeB _ _ _ => (encode i).extractLsb' 64 64 = c.extractLsb' 64 64
      | .setbitR _ => True

/-- The decoder reads the table of 30_encoding section 4 (decision D4): the six values of `W0` with
the operands of `W1`, `W2`, `W3`, and nothing else. -/
def Obligations.DecoderReadsTheTable : Prop :=
  ∀ c : Descriptor,
    let w0 := (c.extractLsb' 0 32).toNat
    let o := (c.extractLsb' 32 32).toNat
    let w := (c.extractLsb' 64 32).toNat
    let v := c.extractLsb' 96 32
    (w0 = 0 → decode c = .ok (.readL o w)) ∧
    (w0 = 1 → decode c = .ok (.writeL o w v)) ∧
    (w0 = 2 → decode c = .ok (.setbit o)) ∧
    (w0 = 4 → decode c = .ok (.readB o w)) ∧
    (w0 = 5 → decode c = .ok (.writeB o w v)) ∧
    (w0 = 6 → decode c = .ok (.setbitR o)) ∧
    (w0 = 3 ∨ w0 = 7 ∨ 8 ≤ w0 → ∃ r, decode c = .error r)

/-- Six descriptors of the programs P1 to P5, one for each instruction, and two reserved words of
section 7.2, decode as 95_test_vectors says. -/
def Obligations.SampleWordsDecode : Prop :=
  decode 0x000000000000000F0000000D00000000 = .ok (.readL 13 15) ∧
  decode 0x40490FDB000000200000000500000001 = .ok (.writeL 5 32 0x40490FDB) ∧
  decode 0x00000000000000000000000A00000002 = .ok (.setbit 10) ∧
  decode 0x00000000000000040000001C00000004 = .ok (.readB 28 4) ∧
  decode 0x00007FFF0000000F0000000D00000005 = .ok (.writeB 13 15 0x7FFF) ∧
  decode 0x00000000000000000000000A00000006 = .ok (.setbitR 10) ∧
  decode 0x00000000000000080000000000000003 = .error .reservedOp ∧
  decode 0x000000FF000000080000000080000001 = .error .reservedBits

/-- Ignored words change nothing (30_encoding section 5, decision D16): two commands with the same
`W0` and `W1` of a SETBIT, or the same `W0`, `W1` and `W2` of a READ, give the same step; and a
SETBIT raises neither `WTL` nor `WZ`. -/
def Obligations.IgnoredWordsDoNotMatter : Prop :=
  (∀ (c c' : Descriptor) (len : BitVec 32) (s : State) (rest : List HostEvent),
    ((c.extractLsb' 0 32).toNat = 0 ∨ (c.extractLsb' 0 32).toNat = 4) →
    c.extractLsb' 0 96 = c'.extractLsb' 0 96 →
    step { s with queue := .command c len :: rest } =
      step { s with queue := .command c' len :: rest }) ∧
  (∀ (c c' : Descriptor) (len : BitVec 32) (s : State) (rest : List HostEvent),
    ((c.extractLsb' 0 32).toNat = 2 ∨ (c.extractLsb' 0 32).toNat = 6) →
    c.extractLsb' 0 64 = c'.extractLsb' 0 64 →
    step { s with queue := .command c len :: rest } =
      step { s with queue := .command c' len :: rest }) ∧
  ∀ (e : Endian) (o : Nat) (s : State), ∃ t r,
    exec (setBit e o) s = .next t ∧ t.responses = s.responses ++ [r] ∧
      r.status.wtl = false ∧ r.status.wz = false

/-- A step whose next act is a command that decodes runs exactly that instruction, on the state
that has the command taken off the queue and its length presented (30_encoding section 2; the
queue is the model's form of the host's list of commands, log entry 1). -/
def Obligations.StepRunsDecodedCommand : Prop :=
  ∀ (s : State) (c : Descriptor) (len : BitVec 32) (rest : List HostEvent) (i : Instr),
    s.queue = .command c len :: rest → decode c = .ok i →
      step s = exec i { s with queue := rest, len := len.toNat }

/-- A word placed to be fetched is the next act, and the next step runs what the decoder reads from
it, as the first instruction after reset as from every other state (30_encoding section 2; the
queue is the model's, log entry 1). -/
def Obligations.PlacedWordRunsNext : Prop :=
  ∀ (s : State) (nbits w : Nat) (i : Instr), decodeTableWord nbits w = some i →
    s.len < 2 ^ 32 → step (s.withFetchWord nbits w) = exec i s

/-- A reserved command word, whatever `W1`, `W2` and `W3` hold, spells no instruction and is answered
by `rdata = 0`, `ILL = 1`, the other flags 0; memory and scratch register are untouched
(60_exceptions section 4, 30_encoding section 6; the spec's decision D5). -/
def Obligations.ReservedCommandAnswered : Prop :=
  ∀ (s : State) (c : Descriptor) (len : BitVec 32) (rest : List HostEvent),
    s.queue = .command c len :: rest →
    (c.extractLsb' 0 2 = 3#2 ∨ c.extractLsb' 3 29 ≠ 0#29) →
      (∃ r, decode c = .error r) ∧
      step s = .next { s with
        queue := rest, len := len.toNat,
        responses := answered s 0 { oob := false, wtl := false, wz := false, ill := true } }

/-- The response word (30_encoding section 7, decision D8). -/
def Obligations.ResponseWordLayout : Prop :=
  ∀ r : Response,
    r.word.extractLsb' 0 32 = r.rdata ∧ r.word.getLsbD 32 = r.status.oob ∧
      r.word.getLsbD 33 = r.status.wtl ∧ r.word.getLsbD 34 = r.status.wz ∧
      r.word.getLsbD 35 = r.status.ill

/-! ### READ -/

/-- READ.L (41_read R81): its word, and what it answers from every state. Performed, `rdata` is
`(S >> (o mod 8)) & (2^w' - 1)` for the little-endian number `S` of the span; suppressed, 0.
Nothing changes but the scratch register and the response. That width 0 is suppressed, the form of
the flags and the strict variant are the spec's decisions D7, D8 and D9 (log entries 8, 19, 21). -/
def Obligations.ReadLittleResult : Prop :=
  (∀ c : Descriptor, c.extractLsb' 0 32 = 0x00000000#32 →
    decode c = .ok (.readL (c.extractLsb' 32 32).toNat (c.extractLsb' 64 32).toNat)) ∧
  (∀ (o w : Nat) (s : State), performed s o w →
    ∃ scr rdata,
      exec (.readL o w) s = .next { s with
        scr := scr, responses := answered s rdata (fieldFlags o w s.len) } ∧
      rdata.toNat = spanSum .little s.mem o w s.len / 2 ^ (o % 8) % 2 ^ width w) ∧
  ∀ (o w : Nat) (s : State), ¬ performed s o w →
    exec (.readL o w) s = .next { s with responses := answered s 0 (fieldFlags o w s.len) }

/-- READ.B (41_read R82): its word, and what it answers from every state. Performed, `rdata` is the
big-endian number `S` of the span shifted by `(8 - ((o + w') mod 8)) mod 8` and masked; suppressed,
0. Nothing changes but the scratch register and the response. Suppression and flags as for READ.L
(decisions D7, D8, D9; log entries 8, 19, 21). -/
def Obligations.ReadBigResult : Prop :=
  (∀ c : Descriptor, c.extractLsb' 0 32 = 0x00000004#32 →
    decode c = .ok (.readB (c.extractLsb' 32 32).toNat (c.extractLsb' 64 32).toNat)) ∧
  (∀ (o w : Nat) (s : State), performed s o w →
    ∃ scr rdata,
      exec (.readB o w) s = .next { s with
        scr := scr, responses := answered s rdata (fieldFlags o w s.len) } ∧
      rdata.toNat =
        spanSum .big s.mem o w s.len / 2 ^ ((8 - (o + width w) % 8) % 8) % 2 ^ width w) ∧
  ∀ (o w : Nat) (s : State), ¬ performed s o w →
    exec (.readB o w) s = .next { s with responses := answered s 0 (fieldFlags o w s.len) }

/-- The result of every READ is right-justified, the bits above `w'` zero (41_read section 2, the
spec's own inference R83). -/
def Obligations.ReadIsRightJustified : Prop :=
  ∀ (e : Endian) (o w : Nat) (s : State), ∃ t r,
    exec (read e o w) s = .next t ∧ t.responses = s.responses ++ [r] ∧ r.rdata.toNat < 2 ^ width w

/-- A field in range (41_read section 2, the spec's own inference R84): bit `i` of READ.L's result is
stream bit `o + i` in little numbering, bit `w' - 1 - i` of READ.B's is stream bit `o + i` in big
numbering. -/
def Obligations.ReadInRangeLayout : Prop :=
  ∀ (e : Endian) (o w : Nat) (s : State), performed s o w → o + width w ≤ 8 * s.len →
    ∃ t r, exec (read e o w) s = .next t ∧ t.responses = s.responses ++ [r] ∧
      ∀ i < width w, r.rdata.getLsbD (valueBit e w i) = streamBit e s.mem (o + i)

/-- READ.L with a clamped tail (41_read section 2, the spec's own inference R85): the bits inside the
buffer in their places, the missing ones 0; and the same as from a buffer extended with zero bytes. -/
def Obligations.ReadLittleClampedTail : Prop :=
  ∀ (o w : Nat) (s : State), w ≠ 0 → s.build.strict = false →
    o / 8 < s.len → 8 * s.len < o + width w →
    ∃ t r, exec (.readL o w) s = .next t ∧ t.responses = s.responses ++ [r] ∧
      (∀ i, r.rdata.getLsbD i =
        (decide (i < width w) && decide (o + i < 8 * s.len) && streamBit .little s.mem (o + i))) ∧
      ∀ s' : State, s'.build.strict = false → o + width w ≤ 8 * s'.len →
        (∀ a < s.len, s'.mem.read a = s.mem.read a) →
        (∀ a, s.len ≤ a → a < s'.len → s'.mem.read a = 0) →
        ∃ t' r', exec (.readL o w) s' = .next t' ∧ t'.responses = s'.responses ++ [r'] ∧
          r'.rdata = r.rdata

/-- READ.B with a clamped tail (41_read section 2, R86, the spec's own inference and decision D13):
the big-endian number of the span extended with zero bytes, moved `8 * d` places lower for the `d`
missing bytes, shifted and masked. -/
def Obligations.ReadBigClampedTail : Prop :=
  ∀ (o w : Nat) (s : State), w ≠ 0 → s.build.strict = false →
    o / 8 < s.len → 8 * s.len < o + width w →
    let N := (o + width w + 7) / 8 - o / 8
    let d := N - (s.len - o / 8)
    let ext := ∑ i ∈ Finset.range N,
      (if o / 8 + i < s.len then (s.mem.read (o / 8 + i)).toNat else 0) * 2 ^ (8 * (N - 1 - i))
    1 ≤ d ∧ ∃ t r, exec (.readB o w) s = .next t ∧ t.responses = s.responses ++ [r] ∧
      r.rdata.toNat = ext / 2 ^ (8 * d) / 2 ^ shift .big o w % 2 ^ width w

/-- A READ wholly beyond the buffer reads nothing and answers 0 (41_read R87). `OOB` is 1 for every
width but 0, whose flags are R112's (decisions D7, D8; log entries 8, 21). -/
def Obligations.ReadBeyondBuffer : Prop :=
  ∀ (e : Endian) (o w : Nat) (s : State), s.len ≤ o / 8 →
    accessPlan s.build.strict (read e o w) s.len = [] ∧
    ∃ t r, exec (read e o w) s = .next t ∧ t.responses = s.responses ++ [r] ∧ r.rdata = 0 ∧
      (w ≠ 0 → r.status.oob = true)

/-- Symmetry (41_read section 2, the spec's own inference R88): in range, READ.B equals READ.L at the
mirrored offset on the byte-reversed buffer. -/
def Obligations.ReadEndianSymmetry : Prop :=
  ∀ (o w : Nat) (s s' : State), performed s o w → o + width w ≤ 8 * s.len →
    s'.len = s.len → s'.build.strict = s.build.strict →
    (∀ a < s.len, s'.mem.read a = s.mem.read (s.len - 1 - a)) →
    ∃ t t' r r', exec (.readB o w) s = .next t ∧ t.responses = s.responses ++ [r] ∧
      exec (.readL (8 * s.len - o - width w) w) s' = .next t' ∧
      t'.responses = s'.responses ++ [r'] ∧ r'.rdata = r.rdata

/-! ### WRITE -/

/-- WRITE.L (42_write R91): its word, and what it does from every state. Performed, bit `p` of span
byte `i` is bit `8i + p` of the merge: the value's where that lies in the field's window, the old
byte's elsewhere; bytes outside the span stay. Suppressed, nothing but the response. Suppression and
flags are the spec's decisions D7, D8 and D9, `rdata = 0` its D18 (log entries 8, 19, 21). -/
def Obligations.WriteLittleResult : Prop :=
  (∀ c : Descriptor, c.extractLsb' 0 32 = 0x00000001#32 →
    decode c = .ok (.writeL (c.extractLsb' 32 32).toNat (c.extractLsb' 64 32).toNat
      (c.extractLsb' 96 32))) ∧
  (∀ (o w : Nat) (v : Word) (s : State), performed s o w →
    ∃ scr m,
      exec (.writeL o w v) s = .next { s with
        mem := m, scr := scr, responses := answered s 0 (fieldFlags o w s.len) } ∧
      (∀ a, a < first o s.len ∨ stop o w s.len ≤ a → m.read a = s.mem.read a) ∧
      (s.mem.wf = true → ∀ i < count o w s.len, ∀ p < 8,
        (m.read (first o s.len + i)).getLsbD p =
          if o % 8 ≤ 8 * i + p ∧ 8 * i + p < o % 8 + width w then v.getLsbD (8 * i + p - o % 8)
          else (s.mem.read (first o s.len + i)).getLsbD p)) ∧
  ∀ (o w : Nat) (v : Word) (s : State), ¬ performed s o w →
    exec (.writeL o w v) s = .next { s with responses := answered s 0 (fieldFlags o w s.len) }

/-- WRITE.B (42_write R92): its word, and what it does from every state. Performed, bit `p` of span
byte `i` is bit `8(n - 1 - i) + p` of the merge; bytes outside the span stay. Suppressed, nothing
but the response. Suppression and flags are the spec's decisions D7, D8 and D9, `rdata = 0` its D18
(log entries 8, 19, 21). -/
def Obligations.WriteBigResult : Prop :=
  (∀ c : Descriptor, c.extractLsb' 0 32 = 0x00000005#32 →
    decode c = .ok (.writeB (c.extractLsb' 32 32).toNat (c.extractLsb' 64 32).toNat
      (c.extractLsb' 96 32))) ∧
  (∀ (o w : Nat) (v : Word) (s : State), performed s o w →
    ∃ scr m,
      exec (.writeB o w v) s = .next { s with
        mem := m, scr := scr, responses := answered s 0 (fieldFlags o w s.len) } ∧
      (∀ a, a < first o s.len ∨ stop o w s.len ≤ a → m.read a = s.mem.read a) ∧
      (s.mem.wf = true → ∀ i < count o w s.len, ∀ p < 8,
        let j := 8 * (count o w s.len - 1 - i) + p
        (m.read (first o s.len + i)).getLsbD p =
          if shift .big o w ≤ j ∧ j < shift .big o w + width w then v.getLsbD (j - shift .big o w)
          else (s.mem.read (first o s.len + i)).getLsbD p)) ∧
  ∀ (o w : Nat) (v : Word) (s : State), ¬ performed s o w →
    exec (.writeB o w v) s = .next { s with responses := answered s 0 (fieldFlags o w s.len) }

/-- Only the low `w'` bits of the value are written (42_write R93): a WRITE of `v` and of
`v mod 2^w'` do the same, in every state. -/
def Obligations.WriteValueTruncation : Prop :=
  ∀ (e : Endian) (o w : Nat) (v : Word) (s : State),
    ∃ t, exec (write e o w v) s = .next t ∧
      exec (write e o w (BitVec.ofNat 32 (v.toNat % 2 ^ width w))) s = .next t

/-- Neighbour preservation (42_write section 2, the spec's own inferences R94 and R96): for a field
in range, and for WRITE.L with any tail, the stream bits of the field become the value's, every
other stream bit of the buffer stays, and no byte at or beyond `len` changes. -/
def Obligations.WritePreservesNeighbours : Prop :=
  ∀ (e : Endian) (o w : Nat) (v : Word) (s : State), s.mem.wf = true → performed s o w →
    (o + width w ≤ 8 * s.len ∨ e = .little) →
    ∃ t, exec (write e o w v) s = .next t ∧
      (∀ b < 8 * s.len, streamBit e t.mem b =
        if o ≤ b ∧ b < o + width w then v.getLsbD (valueBit e w (b - o)) else streamBit e s.mem b) ∧
      ∀ a, s.len ≤ a → t.mem.read a = s.mem.read a

/-- Round trip (42_write section 2, the spec's own inference R95): in range, the READ after a WRITE
of the same field returns `v mod 2^w'`. -/
def Obligations.WriteReadRoundTrip : Prop :=
  ∀ (e : Endian) (o w : Nat) (v : Word) (s : State), s.mem.wf = true → performed s o w →
    o + width w ≤ 8 * s.len →
    ∃ t u r, exec (write e o w v) s = .next t ∧ exec (read e o w) t = .next u ∧
      u.responses = t.responses ++ [r] ∧ r.rdata.toNat = v.toNat % 2 ^ width w

/-- Round trip of WRITE.L and READ.L with any tail (42_write section 2, the spec's own inference
R95): `v mod 2^k`, where `k` field bits are inside the buffer. -/
def Obligations.WriteReadLittleAnyTail : Prop :=
  ∀ (o w : Nat) (v : Word) (s : State), s.mem.wf = true → performed s o w →
    ∃ t u r, exec (.writeL o w v) s = .next t ∧ exec (.readL o w) t = .next u ∧
      u.responses = t.responses ++ [r] ∧
      r.rdata.toNat = v.toNat % 2 ^ min (width w) (8 * s.len - o)

/-- WRITE.B then READ.B with a clamped tail (42_write section 2, the spec's own inference R95): the
low `8n - shift` bits of the value, fewer than `w'`. -/
def Obligations.WriteReadBigClampedTail : Prop :=
  ∀ (o w : Nat) (v : Word) (s : State), s.mem.wf = true → w ≠ 0 → s.build.strict = false →
    o / 8 < s.len → 8 * s.len < o + width w →
    8 * count o w s.len - shift .big o w < width w ∧
    ∃ t u r, exec (.writeB o w v) s = .next t ∧ exec (.readB o w) t = .next u ∧
      u.responses = t.responses ++ [r] ∧
      r.rdata.toNat = v.toNat % 2 ^ width w % 2 ^ (8 * count o w s.len - shift .big o w)

/-- WRITE.B with a clamped tail (42_write section 2, R97, the spec's own inference and decision D13):
of the bytes present, as one big-endian number, bits `shift` to `min(shift + w', 8n) - 1` become the
low bits of `v` and the others stay; no other byte changes. -/
def Obligations.WriteBigClampedTail : Prop :=
  ∀ (o w : Nat) (v : Word) (s : State), s.mem.wf = true → w ≠ 0 → s.build.strict = false →
    o / 8 < s.len → 8 * s.len < o + width w →
    let n := s.len - o / 8
    let S := ∑ i ∈ Finset.range n, (s.mem.read (o / 8 + i)).toNat * 2 ^ (8 * (n - 1 - i))
    let lo := shift .big o w
    let hi := min (shift .big o w + width w) (8 * n)
    ∃ t, exec (.writeB o w v) s = .next t ∧
      ∑ i ∈ Finset.range n, (t.mem.read (o / 8 + i)).toNat * 2 ^ (8 * (n - 1 - i)) =
        S / 2 ^ hi * 2 ^ hi + v.toNat % 2 ^ (hi - lo) * 2 ^ lo + S % 2 ^ lo ∧
      ∀ a, a < o / 8 ∨ s.len ≤ a → t.mem.read a = s.mem.read a

/-- A WRITE wholly beyond the buffer reads and writes nothing (42_write R98), and no WRITE ever
writes a byte at or beyond `len`. `OOB` is 1 for every width but 0, whose flags are R112's (decisions
D7, D8; log entries 8, 21). -/
def Obligations.WriteBeyondBuffer : Prop :=
  (∀ (e : Endian) (o w : Nat) (v : Word) (s : State), s.len ≤ o / 8 →
    accessPlan s.build.strict (write e o w v) s.len = [] ∧
    ∃ t r, exec (write e o w v) s = .next t ∧ t.mem = s.mem ∧ t.responses = s.responses ++ [r] ∧
      (w ≠ 0 → r.status.oob = true)) ∧
  ∀ (e : Endian) (o w : Nat) (v : Word) (s : State), ∃ t, exec (write e o w v) s = .next t ∧
    ∀ a, s.len ≤ a → t.mem.read a = s.mem.read a

/-- Issuing the same WRITE twice leaves the buffer as issuing it once (42_write section 2, the
spec's own inference R99). -/
def Obligations.WriteIdempotent : Prop :=
  ∀ (e : Endian) (o w : Nat) (v : Word) (s : State), s.mem.wf = true →
    ∃ t u, exec (write e o w v) s = .next t ∧ exec (write e o w v) t = .next u ∧ u.mem = t.mem

/-! ### SETBIT -/

/-- SETBIT (43_setbit R101): its word, and what it does from every state: if `o / 8 < len`,
`B[o / 8] <- B[o / 8] | (1 << (o mod 8))`, which sets stream bit `o` in little numbering, and
otherwise nothing; the response has `rdata = 0` and no flag but `OOB` (decisions D8, D18; log entry
21). Every other byte and every other field of the state stays. -/
def Obligations.SetBitResult : Prop :=
  (∀ c : Descriptor, c.extractLsb' 0 32 = 0x00000002#32 →
    decode c = .ok (.setbit (c.extractLsb' 32 32).toNat)) ∧
  ∀ (o : Nat) (s : State), ∃ m,
    exec (.setbit o) s = .next { s with mem := m, responses := answered s 0 (bitFlags o s.len) } ∧
    (s.len ≤ o / 8 → m = s.mem) ∧
    (∀ a, a ≠ o / 8 → m.read a = s.mem.read a) ∧
    (o / 8 < s.len → s.mem.wf = true →
      m.read (o / 8) = s.mem.read (o / 8) ||| (1#8 <<< (o % 8)) ∧ streamBit .little m o = true)

/-- SETBIT.R (43_setbit R102): its word, and what it does from every state: if `o / 8 < len`,
`B[o / 8] <- B[o / 8] | (1 << (7 - (o mod 8)))`, which sets stream bit `o` in big numbering, and
otherwise nothing; the response has `rdata = 0` and no flag but `OOB` (decisions D8, D18; log entry
21). Every other byte and every other field of the state stays. -/
def Obligations.SetBitReversedResult : Prop :=
  (∀ c : Descriptor, c.extractLsb' 0 32 = 0x00000006#32 →
    decode c = .ok (.setbitR (c.extractLsb' 32 32).toNat)) ∧
  ∀ (o : Nat) (s : State), ∃ m,
    exec (.setbitR o) s = .next { s with mem := m, responses := answered s 0 (bitFlags o s.len) } ∧
    (s.len ≤ o / 8 → m = s.mem) ∧
    (∀ a, a ≠ o / 8 → m.read a = s.mem.read a) ∧
    (o / 8 < s.len → s.mem.wf = true →
      m.read (o / 8) = s.mem.read (o / 8) ||| (1#8 <<< (7 - o % 8)) ∧ streamBit .big m o = true)

/-- A SETBIT whose byte is outside the buffer is dropped whole (43_setbit R103): no access, buffer
unchanged, `OOB = 1`. -/
def Obligations.SetBitOutsideIsNoOp : Prop :=
  ∀ (e : Endian) (o : Nat) (s : State), s.len ≤ o / 8 →
    accessPlan s.build.strict (setBit e o) s.len = [] ∧
    exec (setBit e o) s = .next { s with
      responses := answered s 0 { oob := true, wtl := false, wz := false, ill := false } }

/-- SETBIT never clears and is idempotent (43_setbit section 2, the spec's own inference R104): a
physical bit is 1 afterwards exactly if it was 1 before or is the addressed one inside the buffer. -/
def Obligations.SetBitNeverClears : Prop :=
  ∀ (e : Endian) (o : Nat) (s : State), s.mem.wf = true →
    ∃ t u, exec (setBit e o) s = .next t ∧ exec (setBit e o) t = .next u ∧ u.mem = t.mem ∧
      ∀ a, ∀ p < 8, (t.mem.read a).getLsbD p =
        ((s.mem.read a).getLsbD p || decide (a = o / 8 ∧ a < s.len ∧ p = physicalBit e o))

/-- Relation to WRITE (43_setbit section 2, the spec's own inference R105): SETBIT has the effect,
the accesses and the response of a WRITE of 1 to a field of width 1 at the same offset. -/
def Obligations.SetBitAgreesWithWrite : Prop :=
  ∀ (e : Endian) (o : Nat) (s : State), ∃ t u,
    exec (setBit e o) s = .next t ∧ exec (write e o 1 1) s = .next u ∧
      t.mem = u.mem ∧ t.responses = u.responses ∧
      accessPlan s.build.strict (setBit e o) s.len = accessPlan s.build.strict (write e o 1 1) s.len

/-- Reading a set bit back (43_setbit section 2, the spec's own inference R106): under its own
numbering, and for SETBIT also under the other one at the mirrored offset. -/
def Obligations.SetBitReadBack : Prop :=
  ∀ (e : Endian) (o : Nat) (s : State), s.mem.wf = true → o / 8 < s.len →
    ∃ t u r, exec (setBit e o) s = .next t ∧ exec (read e o 1) t = .next u ∧
      u.responses = t.responses ++ [r] ∧ r.rdata = 1 ∧
      (e = .little → ∃ u' r', exec (.readB (8 * (o / 8) + 7 - o % 8) 1) t = .next u' ∧
        u'.responses = t.responses ++ [r'] ∧ r'.rdata = 1)

/-! ### Flags, suppression, boundary conditions -/

/-- Every command completes (60_exceptions section 1): from every state every instruction answers a
next state with exactly one response more, and never faults; so does a step on any command word.
That a reserved word is answered at all is the spec's decision D5 (log entry 10). -/
def Obligations.EveryCommandCompletes : Prop :=
  (∀ (i : Instr) (s : State), ∃ t r,
    exec i s = .next t ∧ t.responses = s.responses ++ [r]) ∧
  ∀ (s : State) (c : Descriptor) (len : BitVec 32) (rest : List HostEvent),
    s.queue = .command c len :: rest → ∃ t r, step s = .next t ∧ t.responses = s.responses ++ [r]

/-- The flags of every response (60_exceptions section 2, decision D8): functions of the operands and
the length alone, as R112's table gives them; `rdata` is 0 for WRITE and SETBIT (10_state section 2,
decision D18); `ILL` is 0 and `WTL` and `WZ` exclude each other (60_exceptions section 6). -/
def Obligations.FlagsOfEveryInstruction : Prop :=
  ∀ (i : Instr) (s : State), ∃ t r,
    exec i s = .next t ∧ t.responses = s.responses ++ [r] ∧ r.status = flags i s.len ∧
      r.status.ill = false ∧ ¬ (r.status.wtl = true ∧ r.status.wz = true) ∧
      match i with
      | .readL _ _ => True
      | .writeL _ _ _ => r.rdata = 0
      | .setbit _ => r.rdata = 0
      | .readB _ _ => True
      | .writeB _ _ _ => r.rdata = 0
      | .setbitR _ => r.rdata = 0

/-- Suppression (60_exceptions section 2, decisions D7 and D9): with `WZ`, or with `STRICT = 1` any of
`OOB`, `WTL` and `WZ`, an instruction makes no access and changes nothing but the response, whose
`rdata` is 0; otherwise its accesses are all of its own. -/
def Obligations.SuppressedOperations : Prop :=
  ∀ (i : Instr) (s : State),
    ((flags i s.len).wz = true ∨
        (s.build.strict = true ∧ ((flags i s.len).oob = true ∨ (flags i s.len).wtl = true)) →
      accessPlan s.build.strict i s.len = [] ∧
      exec i s = .next { s with responses := answered s 0 (flags i s.len) }) ∧
    (¬ ((flags i s.len).wz = true ∨
        (s.build.strict = true ∧ ((flags i s.len).oob = true ∨ (flags i s.len).wtl = true))) →
      accessPlan s.build.strict i s.len = addressesOf i s.len)

/-- Width 0 (60_exceptions section 3; the spec's decision D7, log entry 8): a READ answers 0 and a
WRITE changes nothing, with `WZ = 1` and no access, under either setting of `STRICT`. -/
def Obligations.ZeroWidthIsSuppressed : Prop :=
  ∀ (e : Endian) (o : Nat) (v : Word) (s : State),
    let st : Status := { oob := decide (8 * s.len < o), wtl := false, wz := true, ill := false }
    exec (read e o 0) s = .next { s with responses := answered s 0 st } ∧
    exec (write e o 0 v) s = .next { s with responses := answered s 0 st } ∧
    accessPlan s.build.strict (read e o 0) s.len = [] ∧
    accessPlan s.build.strict (write e o 0 v) s.len = []

/-- The strict variant (60_exceptions section 5; the spec's decision D9, log entry 19): an
instruction with `OOB` or `WTL` only reports; one with no flag does exactly what it does with
`STRICT = 0`. -/
def Obligations.StrictVariant : Prop :=
  ∀ (i : Instr) (s : State), s.build.strict = true →
    (((flags i s.len).oob = true ∨ (flags i s.len).wtl = true) →
      exec i s = .next { s with responses := answered s 0 (flags i s.len) }) ∧
    ((flags i s.len).oob = false → (flags i s.len).wtl = false → (flags i s.len).wz = false →
      ∃ t, exec i s = .next t ∧
        exec i { s with build := { s.build with strict := false } } =
          .next { t with build := { t.build with strict := false } })

/-- A width above 32 behaves in every respect, accesses included, as width 32 and reports `WTL`
(40_datapath R60; with `STRICT = 0`, as every rule but the strict variant's). -/
def Obligations.WideWidthIsThirtyTwo : Prop :=
  ∀ (e : Endian) (o w : Nat) (v : Word) (s : State), s.build.strict = false → 32 < w →
    accessPlan false (read e o w) s.len = accessPlan false (read e o 32) s.len ∧
    accessPlan false (write e o w v) s.len = accessPlan false (write e o 32 v) s.len ∧
    (∃ (t : State) (r : Response),
      exec (read e o 32) s = .next { t with responses := s.responses ++ [r] } ∧
      r.status.wtl = false ∧
      exec (read e o w) s = .next { t with
        responses := s.responses ++ [{ r with status := { r.status with wtl := true } }] }) ∧
    ∃ (t : State) (r : Response),
      exec (write e o 32 v) s = .next { t with responses := s.responses ++ [r] } ∧
      r.status.wtl = false ∧
      exec (write e o w v) s = .next { t with
        responses := s.responses ++ [{ r with status := { r.status with wtl := true } }] }

/-- The shift amount (40_datapath R67): at most 7; `o mod 8` for little data; for big data the number
of bits between the end of the field and the next byte boundary, and the negation `(-x) mod 8`, both
exact and in unsigned words of any width of 3 bits or more. -/
def Obligations.ShiftAmountLaws : Prop :=
  ∀ (o w : Nat),
    shiftAmount .little o w = o % 8 ∧
    shiftAmount .big o w = (8 - (o + width w) % 8) % 8 ∧
    shiftAmount .big o w = 8 * ((o + width w + 7) / 8) - (o + width w) ∧
    (∀ e, shiftAmount e o w ≤ 7) ∧
    -((o + width w : Nat) : Int) % 8 = (shiftAmount .big o w : Int) ∧
    ∀ k, 3 ≤ k → (-(BitVec.ofNat k (o + width w))).toNat % 8 = shiftAmount .big o w

/-- The span (40_datapath section 1, the spec's own inference R62): at most five bytes, inside the
buffer; a field in range fits its span, `shift + w' <= 8n`. -/
def Obligations.SpanOfEveryField : Prop :=
  ∀ (e : Endian) (o w len : Nat) (v : Word), ∃ a n,
    addressesOf (read e o w) len = (List.range n).map (a + ·) ∧
    addressesOf (write e o w v) len = (List.range n).map (a + ·) ∧
    a = first o len ∧ n = count o w len ∧ n ≤ 5 ∧ a + n ≤ len ∧
    (o + width w ≤ 8 * len → shift e o w + width w ≤ 8 * n)

/-! ### The whole machine -/

/-- What every instruction leaves alone (10_state section 2, 20_memory section 3): the length, the
operations in progress, the answers of other instances, the host's acts and the build parameters; a
READ the whole memory; a SETBIT the scratch register, which it does not use (43_setbit; that its
contents stay is the model's choice, log entry 6); and every instruction every byte it does not
access. -/
def Obligations.InstructionFrames : Prop :=
  ∀ (i : Instr) (s : State), ∃ t, exec i s = .next t ∧
    t.len = s.len ∧ t.inFlight = s.inFlight ∧ t.answers = s.answers ∧ t.queue = s.queue ∧
    t.build = s.build ∧
    (∀ a, a ∉ accessPlan s.build.strict i s.len → t.mem.read a = s.mem.read a) ∧
    match i with
    | .readL _ _ => t.mem = s.mem
    | .writeL _ _ _ => True
    | .setbit _ => t.scr = s.scr
    | .readB _ _ => t.mem = s.mem
    | .writeB _ _ _ => True
    | .setbitR _ => t.scr = s.scr

/-- The block never reads or writes a byte at or beyond `len` (20_memory R34): no access is planned
there, no byte there changes, and no byte there has any influence on the response or on the bytes
of the buffer. -/
def Obligations.AccessesStayInsideBuffer : Prop :=
  ∀ (i : Instr) (s : State),
    (∀ a ∈ accessPlan s.build.strict i s.len, a < s.len) ∧
    ∃ t, exec i s = .next t ∧ (∀ a, s.len ≤ a → t.mem.read a = s.mem.read a) ∧
      ∀ m : Memory, (∀ a < s.len, m.read a = s.mem.read a) →
        ∃ u, exec i { s with mem := m } = .next u ∧ u.responses = t.responses ∧
          (s.mem.wf = true → m.wf = true → ∀ a < s.len, u.mem.read a = t.mem.read a)

/-- No persistent state (10_state R10): the response and the bytes an instruction leaves in its span
are functions of its operands, the length, the bytes of its span and `STRICT`, and of nothing else
the state holds: not of earlier responses, the scratch register or `HOST_BIG`. -/
def Obligations.ResultDependsOnOperandsAndSpan : Prop :=
  ∀ (i : Instr) (s s' : State), s'.len = s.len → s'.build.strict = s.build.strict →
    (∀ a ∈ accessPlan s.build.strict i s.len, s'.mem.read a = s.mem.read a) →
    ∃ t t' r, exec i s = .next t ∧ exec i s' = .next t' ∧
      t.responses = s.responses ++ [r] ∧ t'.responses = s'.responses ++ [r] ∧
      (s.mem.wf = true → s'.mem.wf = true →
        ∀ a ∈ accessPlan s.build.strict i s.len, t'.mem.read a = t.mem.read a)

/-- Host-order independence (40_datapath sections 2 and 5, the spec's own inferences R66 and R72;
41_read section 2): let a twin of the machine be built with any `HOST_BIG` and hold anything in its
scratch register. A step of the twin does the same, and leaves a twin again: every step keeps the
relation. -/
def Obligations.HostByteOrderIsInvisible : Prop :=
  ∀ (s : State) (big : Bool) (scr : Scratch),
    match step s, step { s with scr := scr, build := { s.build with hostBig := big } } with
    | .next t, .next t' =>
      ∃ scr', t' = { t with scr := scr', build := { t.build with hostBig := big } }
    | .fault r, .fault r' => r = r'
    | .refused r, .refused r' => r = r'
    | _, _ => False

/-- The scratch register (40_datapath sections 2 and 5, the spec's own inferences R66 and R72; what
it keeps after an operation is the model's choice, log entry 6): after a READ it holds, as a number
in host order, the sum `S` of the span; after a WRITE its span bytes are the bytes stored. -/
def Obligations.ScratchHoldsTheSpan : Prop :=
  ∀ (e : Endian) (o w : Nat) (v : Word) (s : State), performed s o w →
    (∃ t, exec (read e o w) s = .next t ∧
      (scratchNumber s.build.hostBig t.scr).toNat = spanSum e s.mem o w s.len) ∧
    ∃ t, exec (write e o w v) s = .next t ∧
      (s.mem.wf = true → scratchSpan s.build.hostBig (count o w s.len) t.scr =
        (List.range (count o w s.len)).map fun i => t.mem.read (first o s.len + i))

/-- Reset (70_reset section 1, decision D12): idle, no operation in progress, no response, and the
default build parameters. The spec gives the rest no value: that no act of the host is queued, that
the memory lists nothing, and that the scratch register and `len` hold 0 are the model's choices (log
entries 1, 2, 6 and 7). -/
def Obligations.ResetStateValues : Prop :=
  State.reset.inFlight = [] ∧ State.reset.responses = [] ∧ State.reset.answers = [] ∧
    State.reset.queue = [] ∧ State.reset.mem = [] ∧ State.reset.build.strict = false ∧
    State.reset.build.hostBig = false ∧ State.reset.len = 0 ∧
    ∀ hostBig, scratchNumber hostBig State.reset.scr = 0

/-- The state after reset meets the invariant (70_reset section 1). -/
def Obligations.ResetMeetsInvariant : Prop := State.reset.Inv

/-- Every step keeps the invariant: the memory stays in canonical form and below `2^32`, the length
fits its width, operations in progress have accesses left, all inside their buffers, and an instance
has at most one (20_memory sections 3 and 4, 30_encoding section 2). -/
def Obligations.StepKeepsInvariant : Prop :=
  ∀ s t : State, s.Inv → step s = .next t → t.Inv

/-- From a state that meets the invariant no step faults, and a step is refused only where the host
presents a command to a busy instance (60_exceptions section 1, 20_memory section 3, 30_encoding
section 2). -/
def Obligations.StepStopsOnlyForBusyInstance : Prop :=
  ∀ s : State, s.Inv →
    if s.hostBreaksTurn = true then step s = .refused .instanceBusy else ∃ t, step s = .next t

/-- A reset by the host (70_reset section 1, decision D12): the buffer and the build parameters stay,
operations in progress and responses are gone; what the host does next stays (log entry 14). -/
def Obligations.HostResetEffect : Prop :=
  ∀ (s : State) (rest : List HostEvent), s.queue = .reset :: rest →
    step s = .next { State.reset with mem := s.mem, build := s.build, queue := rest }

/-- With no act queued and no operation in progress the block is idle (70_reset section 1; log entry
15); with no act queued the operation in front makes its first access left (70_reset section 3; that
it is this one is the model's choice, log entry 23); and a store of the host changes the one byte it
names (10_state section 2). -/
def Obligations.IdleAndHostStore : Prop :=
  (∀ s : State, s.queue = [] → s.inFlight = [] → step s = .next s) ∧
  (∀ (s : State) (f : Flight) (fs : List Flight) (a : Nat) (as : List Nat) (got : List Host.Cell),
    s.queue = [] → s.inFlight = f :: fs → f.phase = .reading (a :: as) got →
    step s = access f.inst a s) ∧
  (∀ (s : State) (f : Flight) (fs : List Flight) (a : Nat) (b : Byte) (cs : List Host.Cell),
    s.queue = [] → s.inFlight = f :: fs → f.phase = .writing ((a, b) :: cs) →
    step s = access f.inst a s) ∧
  ∀ (s : State) (a : BitVec 32) (b : Byte) (rest : List HostEvent),
    s.queue = .store a b :: rest → ∃ m, step s = .next { s with mem := m, queue := rest } ∧
      (∀ c, c ≠ a.toNat → m.read c = s.mem.read c) ∧ (s.mem.wf = true → m.read a.toNat = b)

/-- One agent is sequential (20_memory section 4): of two commands in a row the second runs on the state
the first left complete, so it sees every byte the first wrote. -/
def Obligations.CommandsRunInOrder : Prop :=
  ∀ (s : State) (c c' : Descriptor) (len len' : BitVec 32) (rest : List HostEvent) (i i' : Instr),
    s.queue = .command c len :: .command c' len' :: rest → decode c = .ok i → decode c' = .ok i' →
    ∃ t u, exec i { s with queue := .command c' len' :: rest, len := len.toNat } = .next t ∧
      exec i' { t with queue := rest, len := len'.toNat } = .next u ∧
      Sys2Proof.core.run 2 s = .next u

/-! ### Several instances on one buffer -/

/-- A command given to a free instance (20_memory sections 3 and 4): with nothing to access its
operation answers at once; otherwise it is in progress with every byte of its plan still to be read,
and nothing else has changed. A reserved word is answered at once with `ILL` alone (60_exceptions
section 4, the spec's decision D5, log entry 10). -/
def Obligations.InstanceStartsWithItsPlan : Prop :=
  (∀ (k : Nat) (c : Descriptor) (len : BitVec 32) (s : State), s.flightOf k = none →
    (c.extractLsb' 0 2 = 3#2 ∨ c.extractLsb' 3 29 ≠ 0#29) →
    issue k c len s = .next { s with
      answers := s.answers ++
        [{ inst := k, response :=
          { rdata := 0, status := { oob := false, wtl := false, wz := false, ill := true } } }] }) ∧
  ∀ (k : Nat) (c : Descriptor) (len : BitVec 32) (s : State) (i : Instr),
    s.flightOf k = none → decode c = .ok i →
    let plan := accessPlan s.build.strict i len.toNat
    (plan = [] → issue k c len s = .next { s with
      answers := s.answers ++
        [{ inst := k, response := { rdata := 0, status := flags i len.toNat } }] }) ∧
    (plan ≠ [] → issue k c len s = .next { s with
      inFlight := { inst := k, op := i, len := len.toNat, phase := .reading plan [] } ::
        s.inFlight })

/-- One access of an instance (20_memory sections 3 and 4): it changes at most the byte it names,
nothing of the block's own, and no other instance's operation. -/
def Obligations.InstanceAccessFrame : Prop :=
  ∀ (k a : Nat) (s t : State), access k a s = .next t →
    (∀ c, c ≠ a → t.mem.read c = s.mem.read c) ∧
    t.len = s.len ∧ t.scr = s.scr ∧ t.responses = s.responses ∧ t.queue = s.queue ∧
    t.build = s.build ∧
    (∀ g : Flight, g.inst ≠ k → (g ∈ t.inFlight ↔ g ∈ s.inFlight)) ∧
    ∀ f, s.flightOf k = some f → ∀ left got, f.phase = .reading left got → t.mem = s.mem

/-- An instance alone does what the block does (20_memory sections 3 and 4, decision D15): whatever
order its accesses come in, once it has responded, the memory and the response are those of the
instruction run as one step. -/
def Obligations.InstanceRefinesExec : Prop :=
  ∀ (k : Nat) (c : Descriptor) (len : BitVec 32) (s t₀ t : State) (i : Instr) (addrs : List Nat),
    s.mem.wf = true → s.flightOf k = none → decode c = .ok i →
    issue k c len s = .next t₀ → accesses k addrs t₀ = .next t → t.flightOf k = none →
    ∃ u r, exec i { s with len := len.toNat } = .next u ∧ u.responses = s.responses ++ [r] ∧
      t.mem = u.mem ∧ t.answers = s.answers ++ [{ inst := k, response := r }]

/-- Every operation ends and responds (70_reset section 3). An instance that makes each access of its
plan twice over, a read and a write, has responded, after at most ten accesses. And once the host has
no act left, from every state that meets the invariant the machine comes, in at most the accesses the
operations in progress have left, to a state with none in progress, each having answered once and
nothing of the block's own changed (the order in which they run on is the model's choice, log entry
23). -/
def Obligations.InstanceFinishes : Prop :=
  (∀ s : State, s.Inv → s.queue = [] → ∃ n t, n ≤ (s.inFlight.map accessesLeft).sum ∧
    Sys2Proof.core.run n s = .next t ∧ t.inFlight = [] ∧
    (∃ new, t.answers = s.answers ++ new ∧ new.map Answer.inst = s.inFlight.map Flight.inst) ∧
    t.queue = [] ∧ t.len = s.len ∧ t.scr = s.scr ∧ t.responses = s.responses ∧ t.build = s.build) ∧
  ∀ (k : Nat) (c : Descriptor) (len : BitVec 32) (s : State) (i : Instr),
    s.flightOf k = none → decode c = .ok i →
    let plan := accessPlan s.build.strict i len.toNat
    (plan ++ plan).length ≤ 10 ∧
    ∃ t₀ t, issue k c len s = .next t₀ ∧ accesses k (plan ++ plan) t₀ = .next t ∧
      t.flightOf k = none

/-- A reset in the middle of an operation (70_reset section 1, decision D12; log entry 14): with
nobody else writing, every byte is afterwards as before the operation or as after it. -/
def Obligations.ResetMidOperationOldOrNew : Prop :=
  ∀ (k : Nat) (c : Descriptor) (len : BitVec 32) (s t₀ t : State) (i : Instr) (addrs : List Nat),
    s.mem.wf = true → s.flightOf k = none → decode c = .ok i →
    issue k c len s = .next t₀ → accesses k addrs t₀ = .next t →
    ∃ u, exec i { s with len := len.toNat } = .next u ∧
      ∀ a, t.resetByHost.mem.read a = s.mem.read a ∨ t.resetByHost.mem.read a = u.mem.read a

/-- A lost update (43_setbit R107): two instances set bits 0 and 1 of the same byte; both read the
old byte before either writes, and of the two bits only the later writer's is left. Likewise two
WRITEs of the two halves of a byte, and a WRITE beside a SETBIT. -/
def Obligations.ConcurrentUpdatesLoseOne : Prop :=
  ∃ t, Sys2Proof.core.run 6 { State.reset with queue :=
      [.issue 0 (encode (.setbit 0)) 1, .issue 1 (encode (.setbit 1)) 1,
        .access 0 0, .access 1 0, .access 0 0, .access 1 0] } = .next t ∧
    t.mem.read 0 = 0x02 ∧ t.inFlight = [] ∧ t.answers.length = 2 ∧
  ∃ u, Sys2Proof.core.run 6 { State.reset with queue :=
      [.issue 0 (encode (.writeL 0 4 0xF)) 1, .issue 1 (encode (.writeL 4 4 0xF)) 1,
        .access 0 0, .access 1 0, .access 0 0, .access 1 0] } = .next u ∧
    u.mem.read 0 = 0xF0 ∧ u.inFlight = [] ∧ u.answers.length = 2 ∧
  ∃ x, Sys2Proof.core.run 6 { State.reset with queue :=
      [.issue 0 (encode (.setbitR 0)) 1, .issue 1 (encode (.writeB 4 4 0xF)) 1,
        .access 1 0, .access 0 0, .access 0 0, .access 1 0] } = .next x ∧
    x.mem.read 0 = 0x0F ∧ x.inFlight = [] ∧ x.answers.length = 2

/-- Giving an instance a command leaves the memory as it is, and so does every access of a READ, in
every state, whatever other agents do in between (20_memory section 4): a READ given to a free
instance is from then on reading or over, and an access of a reading READ keeps the memory and leaves
the READ reading or over. Last, the same for accesses in a row. -/
def Obligations.StartsAndReadsKeepMemory : Prop :=
  (∀ (k : Nat) (c : Descriptor) (len : BitVec 32) (s t : State),
    issue k c len s = .next t → t.mem = s.mem) ∧
  (∀ (k : Nat) (c : Descriptor) (len : BitVec 32) (e : Endian) (o w : Nat) (s t : State),
    decode c = .ok (read e o w) → issue k c len s = .next t →
    t.flightOf k = none ∨ ∃ left, t.flightOf k = some
      { inst := k, op := read e o w, len := len.toNat, phase := .reading left [] }) ∧
  (∀ (k a : Nat) (e : Endian) (o w : Nat) (s t : State) (f : Flight) (left : List Nat)
    (got : List Host.Cell), s.flightOf k = some f → f.op = read e o w → f.phase = .reading left got →
    access k a s = .next t →
    t.mem = s.mem ∧ (t.flightOf k = none ∨ ∃ left' got',
      t.flightOf k = some { f with phase := .reading left' got' })) ∧
  ∀ (k : Nat) (c : Descriptor) (len : BitVec 32) (e : Endian) (o w : Nat) (s t₀ t : State)
    (addrs : List Nat), s.flightOf k = none → decode c = .ok (read e o w) →
    issue k c len s = .next t₀ → accesses k addrs t₀ = .next t → t.mem = s.mem
end

