-- ==== Sys2Proof/Laws/Memory.lean ====
section
/-! SUPPORT. The laws of the buffer memory: a read after a write, the canonical form, and that two
memories in canonical form that read alike are equal. -/

namespace Sys2Proof.Machine

@[simp] theorem Memory.read_nil (a : Nat) : Memory.read [] a = blankByte := rfl

theorem Memory.read_cons (k : Nat) (x : Byte) (m : Memory) (a : Nat) :
    Memory.read ((k, x) :: m) a = if a = k then x else m.read a := rfl

theorem Memory.read_cellOf_append (k : Nat) (x : Byte) (m : Memory) (a : Nat) (h : a ≠ k) :
    Memory.read (cellOf k x ++ m) a = m.read a := by
  unfold cellOf
  split <;> simp [Memory.read_cons, h]

theorem Memory.wfFrom_cons (lo k : Nat) (x : Byte) (m : Memory) :
    Memory.wfFrom lo ((k, x) :: m) = true ↔
      lo ≤ k ∧ x ≠ blankByte ∧ Memory.wfFrom (k + 1) m = true := by
  simp [Memory.wfFrom, and_assoc]

theorem Memory.wfFrom_mono {lo lo' : Nat} {m : Memory} (h : Memory.wfFrom lo m = true)
    (le : lo' ≤ lo) : Memory.wfFrom lo' m = true := by
  cases m with
  | nil => rfl
  | cons c m =>
    obtain ⟨k, x⟩ := c
    rw [Memory.wfFrom_cons] at h ⊢
    exact ⟨by omega, h.2⟩

/-- Below the first address it may list, a memory in canonical form is blank. -/
theorem Memory.read_below {lo a : Nat} {m : Memory} (h : Memory.wfFrom lo m = true) (lt : a < lo) :
    m.read a = blankByte := by
  induction m generalizing lo with
  | nil => rfl
  | cons c m ih =>
    obtain ⟨k, x⟩ := c
    rw [Memory.wfFrom_cons] at h
    rw [Memory.read_cons, if_neg (by omega)]
    exact ih h.2.2 (by omega)

/-- A write leaves every other byte alone. -/
theorem Memory.read_write_other (m : Memory) {a c : Nat} (b : Byte) (h : c ≠ a) :
    (m.write a b).read c = m.read c := by
  induction m with
  | nil => simpa [Memory.write] using Memory.read_cellOf_append a b [] c h
  | cons cell m ih =>
    obtain ⟨k, x⟩ := cell
    simp only [Memory.write]
    split
    · exact Memory.read_cellOf_append a b _ c h
    · split
      · rename_i eq
        rw [Memory.read_cellOf_append a b _ c h, Memory.read_cons, if_neg (by omega)]
      · rw [Memory.read_cons, Memory.read_cons, ih]

/-- A read after a write to the same address gives the byte written. -/
theorem Memory.read_write_same {m : Memory} (h : m.wf = true) (a : Nat) (b : Byte) :
    (m.write a b).read a = b := by
  have key : ∀ lo (m : Memory), Memory.wfFrom lo m = true → (m.write a b).read a = b := by
    intro lo m
    induction m generalizing lo with
    | nil =>
      intro _
      unfold Memory.write cellOf
      split <;> simp_all [Memory.read_cons]
    | cons cell m ih =>
      obtain ⟨k, x⟩ := cell
      intro h
      rw [Memory.wfFrom_cons] at h
      simp only [Memory.write]
      split
      · unfold cellOf
        split
        · rename_i lt eq
          rw [List.nil_append, Memory.read_cons, if_neg (by omega),
            Memory.read_below h.2.2 (by omega), eq]
        · simp [Memory.read_cons]
      · split
        · rename_i eq
          unfold cellOf
          split
          · rename_i eq'
            rw [List.nil_append, Memory.read_below h.2.2 (by omega), eq']
          · simp [Memory.read_cons]
        · rw [Memory.read_cons, if_neg (by omega)]
          exact ih _ h.2.2
  exact key 0 m h

theorem Memory.read_write {m : Memory} (h : m.wf = true) (a c : Nat) (b : Byte) :
    (m.write a b).read c = if c = a then b else m.read c := by
  split
  · subst_vars
    exact Memory.read_write_same h c b
  · rename_i ne
    exact Memory.read_write_other m b ne

/-- A write keeps the canonical form. -/
theorem Memory.write_wf {m : Memory} (h : m.wf = true) (a : Nat) (b : Byte) :
    (m.write a b).wf = true := by
  have cell : ∀ lo hi (m : Memory), lo ≤ a → a < hi → Memory.wfFrom hi m = true →
      Memory.wfFrom lo (cellOf a b ++ m) = true := by
    intro lo hi m le lt h
    unfold cellOf
    split
    · exact Memory.wfFrom_mono h (by omega)
    · rename_i ne
      simp only [List.cons_append, List.nil_append]
      rw [Memory.wfFrom_cons]
      exact ⟨le, ne, Memory.wfFrom_mono h (by omega)⟩
  have key : ∀ lo (m : Memory), lo ≤ a → Memory.wfFrom lo m = true →
      Memory.wfFrom lo (m.write a b) = true := by
    intro lo m
    induction m generalizing lo with
    | nil =>
      intro le _
      have := cell lo (a + 1) [] le (by omega) rfl
      simpa [Memory.write] using this
    | cons c m ih =>
      obtain ⟨k, x⟩ := c
      intro le h
      rw [Memory.wfFrom_cons] at h
      simp only [Memory.write]
      split
      · rename_i lt
        exact cell lo k _ le lt ((Memory.wfFrom_cons _ _ _ _).2 ⟨by omega, h.2⟩)
      · split
        · rename_i eq
          subst eq
          exact cell lo (a + 1) _ le (by omega) h.2.2
        · rw [Memory.wfFrom_cons]
          exact ⟨h.1, h.2.1, ih _ (by omega) h.2.2⟩
  exact key 0 m (by omega) h

/-- A write below a bound keeps every listed address below it. -/
theorem Memory.write_below {m : Memory} {hi : Nat} (h : m.below hi = true) {a : Nat} (lt : a < hi)
    (b : Byte) : (m.write a b).below hi = true := by
  have cell : (cellOf a b).below hi = true := by
    unfold cellOf Memory.below
    split <;> simp [lt]
  induction m with
  | nil => simpa [Memory.write] using cell
  | cons c m ih =>
    obtain ⟨k, x⟩ := c
    simp only [Memory.below, List.all_cons, Bool.and_eq_true] at h cell ih ⊢
    simp only [Memory.write]
    split
    · simp only [List.all_append, List.all_cons, Bool.and_eq_true]
      exact ⟨cell, h⟩
    · split
      · simp only [List.all_append, Bool.and_eq_true]
        exact ⟨cell, h.2⟩
      · simp only [List.all_cons, Bool.and_eq_true]
        exact ⟨h.1, ih h.2⟩

/-- Two memories in canonical form that read alike everywhere are equal. -/
theorem Memory.ext_of_wf {m m' : Memory} (h : m.wf = true) (h' : m'.wf = true)
    (eq : ∀ a, m.read a = m'.read a) : m = m' := by
  have key : ∀ (m m' : Memory) lo lo', Memory.wfFrom lo m = true → Memory.wfFrom lo' m' = true →
      (∀ a, m.read a = m'.read a) → m = m' := by
    intro m
    induction m with
    | nil =>
      intro m' lo lo' _ h' eq
      cases m' with
      | nil => rfl
      | cons c m' =>
        obtain ⟨k, x⟩ := c
        rw [Memory.wfFrom_cons] at h'
        have := eq k
        rw [Memory.read_nil, Memory.read_cons, if_pos rfl] at this
        exact absurd this.symm h'.2.1
    | cons c m ih =>
      intro m' lo lo' h h' eq
      obtain ⟨k, x⟩ := c
      cases m' with
      | nil =>
        rw [Memory.wfFrom_cons] at h
        have := eq k
        rw [Memory.read_nil, Memory.read_cons, if_pos rfl] at this
        exact absurd this h.2.1
      | cons c' m' =>
        obtain ⟨k', x'⟩ := c'
        rw [Memory.wfFrom_cons] at h h'
        have hk := eq k
        have hk' := eq k'
        simp only [Memory.read_cons, if_true] at hk hk'
        have heq : k = k' := by
          by_contra ne
          rcases Nat.lt_or_gt_of_ne ne with lt | gt
          · rw [if_neg ne, Memory.read_below h'.2.2 (by omega)] at hk
            exact h.2.1 hk
          · rw [if_neg (Ne.symm ne), Memory.read_below h.2.2 (by omega)] at hk'
            exact h'.2.1 hk'.symm
        subst heq
        rw [if_pos rfl] at hk
        subst hk
        congr 1
        refine ih m' _ _ h.2.2 h'.2.2 fun a => ?_
        by_cases ha : a = k
        · subst ha
          rw [Memory.read_below h.2.2 (by omega), Memory.read_below h'.2.2 (by omega)]
        · have := eq a
          rwa [Memory.read_cons, Memory.read_cons, if_neg ha, if_neg ha] at this
  exact key m m' 0 0 h h' eq

/-- Reset memory is in canonical form. -/
theorem State.reset_mem_wf : State.reset.mem.wf = true := rfl

end Sys2Proof.Machine
end

