-- ==== Sys2Proof/Laws/State.lean ====
section
/-! SUPPORT. One lemma per field of State per update of it, so that no proof unfolds an update. -/

namespace Sys2Proof.Machine

@[simp] theorem State.withScr_mem (s : State) (scr : Scratch) :
    (s.withScr scr).mem = s.mem := rfl
@[simp] theorem State.withScr_len (s : State) (scr : Scratch) :
    (s.withScr scr).len = s.len := rfl
@[simp] theorem State.withScr_scr (s : State) (scr : Scratch) :
    (s.withScr scr).scr = scr := rfl
@[simp] theorem State.withScr_responses (s : State) (scr : Scratch) :
    (s.withScr scr).responses = s.responses := rfl
@[simp] theorem State.withScr_inFlight (s : State) (scr : Scratch) :
    (s.withScr scr).inFlight = s.inFlight := rfl
@[simp] theorem State.withScr_answers (s : State) (scr : Scratch) :
    (s.withScr scr).answers = s.answers := rfl
@[simp] theorem State.withScr_queue (s : State) (scr : Scratch) :
    (s.withScr scr).queue = s.queue := rfl
@[simp] theorem State.withScr_build (s : State) (scr : Scratch) :
    (s.withScr scr).build = s.build := rfl

@[simp] theorem State.respond_mem (s : State) (r : Word) (st : Status) :
    (s.respond r st).mem = s.mem := rfl
@[simp] theorem State.respond_len (s : State) (r : Word) (st : Status) :
    (s.respond r st).len = s.len := rfl
@[simp] theorem State.respond_scr (s : State) (r : Word) (st : Status) :
    (s.respond r st).scr = s.scr := rfl
@[simp] theorem State.respond_responses (s : State) (r : Word) (st : Status) :
    (s.respond r st).responses = s.responses ++ [{ rdata := r, status := st }] := rfl
@[simp] theorem State.respond_inFlight (s : State) (r : Word) (st : Status) :
    (s.respond r st).inFlight = s.inFlight := rfl
@[simp] theorem State.respond_answers (s : State) (r : Word) (st : Status) :
    (s.respond r st).answers = s.answers := rfl
@[simp] theorem State.respond_queue (s : State) (r : Word) (st : Status) :
    (s.respond r st).queue = s.queue := rfl
@[simp] theorem State.respond_build (s : State) (r : Word) (st : Status) :
    (s.respond r st).build = s.build := rfl

@[simp] theorem State.answer_mem (s : State) (k : Nat) (r : Word) (st : Status) :
    (s.answer k r st).mem = s.mem := rfl
@[simp] theorem State.answer_len (s : State) (k : Nat) (r : Word) (st : Status) :
    (s.answer k r st).len = s.len := rfl
@[simp] theorem State.answer_scr (s : State) (k : Nat) (r : Word) (st : Status) :
    (s.answer k r st).scr = s.scr := rfl
@[simp] theorem State.answer_responses (s : State) (k : Nat) (r : Word) (st : Status) :
    (s.answer k r st).responses = s.responses := rfl
@[simp] theorem State.answer_inFlight (s : State) (k : Nat) (r : Word) (st : Status) :
    (s.answer k r st).inFlight = s.inFlight := rfl
@[simp] theorem State.answer_answers (s : State) (k : Nat) (r : Word) (st : Status) :
    (s.answer k r st).answers = s.answers ++ [{ inst := k, response := { rdata := r, status := st } }] := rfl
@[simp] theorem State.answer_queue (s : State) (k : Nat) (r : Word) (st : Status) :
    (s.answer k r st).queue = s.queue := rfl
@[simp] theorem State.answer_build (s : State) (k : Nat) (r : Word) (st : Status) :
    (s.answer k r st).build = s.build := rfl

@[simp] theorem State.withQueue_mem (s : State) (q : List HostEvent) :
    (s.withQueue q).mem = s.mem := rfl
@[simp] theorem State.withQueue_len (s : State) (q : List HostEvent) :
    (s.withQueue q).len = s.len := rfl
@[simp] theorem State.withQueue_scr (s : State) (q : List HostEvent) :
    (s.withQueue q).scr = s.scr := rfl
@[simp] theorem State.withQueue_responses (s : State) (q : List HostEvent) :
    (s.withQueue q).responses = s.responses := rfl
@[simp] theorem State.withQueue_inFlight (s : State) (q : List HostEvent) :
    (s.withQueue q).inFlight = s.inFlight := rfl
@[simp] theorem State.withQueue_answers (s : State) (q : List HostEvent) :
    (s.withQueue q).answers = s.answers := rfl
@[simp] theorem State.withQueue_queue (s : State) (q : List HostEvent) :
    (s.withQueue q).queue = q := rfl
@[simp] theorem State.withQueue_build (s : State) (q : List HostEvent) :
    (s.withQueue q).build = s.build := rfl

@[simp] theorem State.present_mem (s : State) (n : BitVec 32) :
    (s.present n).mem = s.mem := rfl
@[simp] theorem State.present_len (s : State) (n : BitVec 32) :
    (s.present n).len = n.toNat := rfl
@[simp] theorem State.present_scr (s : State) (n : BitVec 32) :
    (s.present n).scr = s.scr := rfl
@[simp] theorem State.present_responses (s : State) (n : BitVec 32) :
    (s.present n).responses = s.responses := rfl
@[simp] theorem State.present_inFlight (s : State) (n : BitVec 32) :
    (s.present n).inFlight = s.inFlight := rfl
@[simp] theorem State.present_answers (s : State) (n : BitVec 32) :
    (s.present n).answers = s.answers := rfl
@[simp] theorem State.present_queue (s : State) (n : BitVec 32) :
    (s.present n).queue = s.queue := rfl
@[simp] theorem State.present_build (s : State) (n : BitVec 32) :
    (s.present n).build = s.build := rfl

@[simp] theorem State.respondReserved_mem (s : State) :
    (s.respondReserved).mem = s.mem := rfl
@[simp] theorem State.respondReserved_len (s : State) :
    (s.respondReserved).len = s.len := rfl
@[simp] theorem State.respondReserved_scr (s : State) :
    (s.respondReserved).scr = s.scr := rfl
@[simp] theorem State.respondReserved_responses (s : State) :
    (s.respondReserved).responses = s.responses ++ [{ rdata := 0, status := reservedStatus }] := rfl
@[simp] theorem State.respondReserved_inFlight (s : State) :
    (s.respondReserved).inFlight = s.inFlight := rfl
@[simp] theorem State.respondReserved_answers (s : State) :
    (s.respondReserved).answers = s.answers := rfl
@[simp] theorem State.respondReserved_queue (s : State) :
    (s.respondReserved).queue = s.queue := rfl
@[simp] theorem State.respondReserved_build (s : State) :
    (s.respondReserved).build = s.build := rfl

@[simp] theorem State.hostStore_mem (s : State) (a : BitVec 32) (b : Byte) :
    (s.hostStore a b).mem = s.mem.write a.toNat b := rfl
@[simp] theorem State.hostStore_len (s : State) (a : BitVec 32) (b : Byte) :
    (s.hostStore a b).len = s.len := rfl
@[simp] theorem State.hostStore_scr (s : State) (a : BitVec 32) (b : Byte) :
    (s.hostStore a b).scr = s.scr := rfl
@[simp] theorem State.hostStore_responses (s : State) (a : BitVec 32) (b : Byte) :
    (s.hostStore a b).responses = s.responses := rfl
@[simp] theorem State.hostStore_inFlight (s : State) (a : BitVec 32) (b : Byte) :
    (s.hostStore a b).inFlight = s.inFlight := rfl
@[simp] theorem State.hostStore_answers (s : State) (a : BitVec 32) (b : Byte) :
    (s.hostStore a b).answers = s.answers := rfl
@[simp] theorem State.hostStore_queue (s : State) (a : BitVec 32) (b : Byte) :
    (s.hostStore a b).queue = s.queue := rfl
@[simp] theorem State.hostStore_build (s : State) (a : BitVec 32) (b : Byte) :
    (s.hostStore a b).build = s.build := rfl

@[simp] theorem State.resetByHost_mem (s : State) :
    (s.resetByHost).mem = s.mem := rfl
@[simp] theorem State.resetByHost_len (s : State) :
    (s.resetByHost).len = 0 := rfl
@[simp] theorem State.resetByHost_scr (s : State) :
    (s.resetByHost).scr = Scratch.zero := rfl
@[simp] theorem State.resetByHost_responses (s : State) :
    (s.resetByHost).responses = [] := rfl
@[simp] theorem State.resetByHost_inFlight (s : State) :
    (s.resetByHost).inFlight = [] := rfl
@[simp] theorem State.resetByHost_answers (s : State) :
    (s.resetByHost).answers = [] := rfl
@[simp] theorem State.resetByHost_queue (s : State) :
    (s.resetByHost).queue = s.queue := rfl
@[simp] theorem State.resetByHost_build (s : State) :
    (s.resetByHost).build = s.build := rfl

@[simp] theorem State.queueCommand_mem (s : State) (c : Descriptor) :
    (s.queueCommand c).mem = s.mem := rfl
@[simp] theorem State.queueCommand_len (s : State) (c : Descriptor) :
    (s.queueCommand c).len = s.len := rfl
@[simp] theorem State.queueCommand_scr (s : State) (c : Descriptor) :
    (s.queueCommand c).scr = s.scr := rfl
@[simp] theorem State.queueCommand_responses (s : State) (c : Descriptor) :
    (s.queueCommand c).responses = s.responses := rfl
@[simp] theorem State.queueCommand_inFlight (s : State) (c : Descriptor) :
    (s.queueCommand c).inFlight = s.inFlight := rfl
@[simp] theorem State.queueCommand_answers (s : State) (c : Descriptor) :
    (s.queueCommand c).answers = s.answers := rfl
@[simp] theorem State.queueCommand_queue (s : State) (c : Descriptor) :
    (s.queueCommand c).queue = .command c (BitVec.ofNat 32 s.len) :: s.queue := rfl
@[simp] theorem State.queueCommand_build (s : State) (c : Descriptor) :
    (s.queueCommand c).build = s.build := rfl

@[simp] theorem State.dropFlight_mem (s : State) (k : Nat) :
    (s.dropFlight k).mem = s.mem := rfl
@[simp] theorem State.dropFlight_len (s : State) (k : Nat) :
    (s.dropFlight k).len = s.len := rfl
@[simp] theorem State.dropFlight_scr (s : State) (k : Nat) :
    (s.dropFlight k).scr = s.scr := rfl
@[simp] theorem State.dropFlight_responses (s : State) (k : Nat) :
    (s.dropFlight k).responses = s.responses := rfl
@[simp] theorem State.dropFlight_inFlight (s : State) (k : Nat) :
    (s.dropFlight k).inFlight = s.inFlight.filter fun f => decide (f.inst ≠ k) := rfl
@[simp] theorem State.dropFlight_answers (s : State) (k : Nat) :
    (s.dropFlight k).answers = s.answers := rfl
@[simp] theorem State.dropFlight_queue (s : State) (k : Nat) :
    (s.dropFlight k).queue = s.queue := rfl
@[simp] theorem State.dropFlight_build (s : State) (k : Nat) :
    (s.dropFlight k).build = s.build := rfl

@[simp] theorem State.putFlight_mem (s : State) (f : Flight) :
    (s.putFlight f).mem = s.mem := rfl
@[simp] theorem State.putFlight_len (s : State) (f : Flight) :
    (s.putFlight f).len = s.len := rfl
@[simp] theorem State.putFlight_scr (s : State) (f : Flight) :
    (s.putFlight f).scr = s.scr := rfl
@[simp] theorem State.putFlight_responses (s : State) (f : Flight) :
    (s.putFlight f).responses = s.responses := rfl
@[simp] theorem State.putFlight_inFlight (s : State) (f : Flight) :
    (s.putFlight f).inFlight = f :: s.inFlight.filter fun g => decide (g.inst ≠ f.inst) := rfl
@[simp] theorem State.putFlight_answers (s : State) (f : Flight) :
    (s.putFlight f).answers = s.answers := rfl
@[simp] theorem State.putFlight_queue (s : State) (f : Flight) :
    (s.putFlight f).queue = s.queue := rfl
@[simp] theorem State.putFlight_build (s : State) (f : Flight) :
    (s.putFlight f).build = s.build := rfl

@[simp] theorem State.finish_mem (s : State) (f : Flight) (r : Word) :
    (s.finish f r).mem = s.mem := rfl
@[simp] theorem State.finish_len (s : State) (f : Flight) (r : Word) :
    (s.finish f r).len = s.len := rfl
@[simp] theorem State.finish_scr (s : State) (f : Flight) (r : Word) :
    (s.finish f r).scr = s.scr := rfl
@[simp] theorem State.finish_responses (s : State) (f : Flight) (r : Word) :
    (s.finish f r).responses = s.responses := rfl
@[simp] theorem State.finish_inFlight (s : State) (f : Flight) (r : Word) :
    (s.finish f r).inFlight = s.inFlight.filter fun g => decide (g.inst ≠ f.inst) := rfl
@[simp] theorem State.finish_answers (s : State) (f : Flight) (r : Word) :
    (s.finish f r).answers = s.answers ++ [{ inst := f.inst, response := { rdata := r, status := statusOf f.op f.len } }] := rfl
@[simp] theorem State.finish_queue (s : State) (f : Flight) (r : Word) :
    (s.finish f r).queue = s.queue := rfl
@[simp] theorem State.finish_build (s : State) (f : Flight) (r : Word) :
    (s.finish f r).build = s.build := rfl

end Sys2Proof.Machine
end

