-- ==== Sys2Proof/Laws/Access.lean ====
section
/-! SUPPORT. What the gather and scatter loops do inside the buffer, and that they stop outside. -/

namespace Sys2Proof.Machine

/-- The memory after bytes are written from an address on. -/
def Memory.writeFrom (m : Memory) (a : Nat) (bytes : List Byte) : Memory :=
  match bytes with
  | [] => m
  | b :: bs => (m.write a b).writeFrom (a + 1) bs

/-- The bytes of a memory from an address on. -/
def Memory.readFrom (m : Memory) (a n : Nat) : List Byte := (List.range n).map fun i => m.read (a + i)

@[simp] theorem Memory.length_readFrom (m : Memory) (a n : Nat) : (m.readFrom a n).length = n := by
  simp [Memory.readFrom]

@[simp] theorem Memory.readFrom_zero (m : Memory) (a : Nat) : m.readFrom a 0 = [] := rfl

theorem Memory.readFrom_succ (m : Memory) (a n : Nat) :
    m.readFrom a (n + 1) = m.read a :: m.readFrom (a + 1) n := by
  simp only [Memory.readFrom, List.range_succ_eq_map, List.map_cons, List.map_map, Nat.add_zero,
    List.cons.injEq, true_and]
  exact List.map_congr_left fun i _ => by simp only [Function.comp]; congr 1; omega

theorem Memory.getElem_readFrom (m : Memory) (a n i : Nat) (h : i < (m.readFrom a n).length) :
    (m.readFrom a n)[i] = m.read (a + i) := by
  simp [Memory.readFrom]

theorem Memory.getD_readFrom (m : Memory) {a n i : Nat} (h : i < n) (d : Byte) :
    (m.readFrom a n).getD i d = m.read (a + i) := by
  simp [Memory.readFrom, List.getD_eq_getElem?_getD, h]

theorem spanBytes_eq_readFrom (m : Memory) (o w len : Nat) :
    spanBytes m o w len = m.readFrom (byteBegin o len) (spanLength o w len) := rfl

@[simp] theorem length_spanBytes (m : Memory) (o w len : Nat) :
    (spanBytes m o w len).length = spanLength o w len := by
  simp [spanBytes]

/-- The gather answers exactly inside the buffer, with the bytes there. -/
theorem State.gather_eq (s : State) (a n : Nat) :
    s.gather a n = if n = 0 ∨ a + n ≤ s.len then some (s.mem.readFrom a n) else none := by
  induction n generalizing a with
  | zero => rfl
  | succ n ih =>
    simp only [State.gather, State.memRead, ih, Memory.readFrom_succ]
    by_cases h : a < s.len
    · by_cases h' : n = 0 ∨ a + 1 + n ≤ s.len
      · rw [if_pos h, if_pos h', if_pos (by omega)]
        rfl
      · rw [if_pos h, if_neg h', if_neg (by omega)]
        rfl
    · rw [if_neg h, if_neg (show ¬ (n + 1 = 0 ∨ a + (n + 1) ≤ s.len) by omega)]

/-- The scatter answers exactly inside the buffer, and writes the bytes there and nothing else. -/
theorem State.scatter_eq (s : State) (a : Nat) (bytes : List Byte) :
    s.scatter a bytes =
      if bytes = [] ∨ a + bytes.length ≤ s.len then some { s with mem := s.mem.writeFrom a bytes }
      else none := by
  induction bytes generalizing s a with
  | nil => rfl
  | cons b bs ih =>
    simp only [State.scatter, State.memWrite, List.length_cons, reduceCtorEq, false_or]
    by_cases h : a < s.len
    · rw [if_pos h]
      simp only [ih, Memory.writeFrom]
      by_cases h' : bs = [] ∨ a + 1 + bs.length ≤ s.len
      · rw [if_pos h', if_pos]
        rcases h' with rfl | h'
        · simpa using h
        · omega
      · rw [if_neg h', if_neg]
        have : bs.length ≠ 0 := by
          intro z
          exact h' (.inl (List.length_eq_zero_iff.1 z))
        omega
    · rw [if_neg h, if_neg (by omega)]

theorem Memory.read_writeFrom_outside (m : Memory) {a c : Nat} {bytes : List Byte}
    (h : c < a ∨ a + bytes.length ≤ c) : (m.writeFrom a bytes).read c = m.read c := by
  induction bytes generalizing m a with
  | nil => rfl
  | cons b bs ih =>
    rw [List.length_cons] at h
    rw [Memory.writeFrom, ih _ (by omega), Memory.read_write_other _ _ (by omega)]

theorem Memory.writeFrom_wf {m : Memory} (h : m.wf = true) (a : Nat) (bytes : List Byte) :
    (m.writeFrom a bytes).wf = true := by
  induction bytes generalizing m a with
  | nil => exact h
  | cons b bs ih => exact ih (Memory.write_wf h a b) (a + 1)

theorem Memory.writeFrom_below {m : Memory} {hi : Nat} (h : m.below hi = true) {a : Nat}
    {bytes : List Byte} (lt : bytes = [] ∨ a + bytes.length ≤ hi) :
    (m.writeFrom a bytes).below hi = true := by
  induction bytes generalizing m a with
  | nil => exact h
  | cons b bs ih =>
    simp only [List.length_cons, reduceCtorEq, false_or] at lt
    refine ih (Memory.write_below h (by omega) b) (.inr (by omega))

theorem Memory.read_writeFrom_inside {m : Memory} (h : m.wf = true) {a i : Nat} {bytes : List Byte}
    (lt : i < bytes.length) : (m.writeFrom a bytes).read (a + i) = bytes[i] := by
  induction bytes generalizing m a i with
  | nil => simp at lt
  | cons b bs ih =>
    rw [Memory.writeFrom]
    cases i with
    | zero =>
      rw [Memory.read_writeFrom_outside _ (by omega), Nat.add_zero, Memory.read_write_same h]
      rfl
    | succ i =>
      have := ih (Memory.write_wf h a b) (a := a + 1) (i := i) (by simpa using lt)
      rw [show a + (i + 1) = a + 1 + i by omega, this]
      rfl

/-- What a read of one byte gives after bytes were written from an address on. -/
theorem Memory.read_writeFrom {m : Memory} (h : m.wf = true) (a c : Nat) (bytes : List Byte) :
    (m.writeFrom a bytes).read c =
      if a ≤ c ∧ c < a + bytes.length then bytes.getD (c - a) 0 else m.read c := by
  split
  · rename_i hc
    obtain ⟨i, rfl⟩ := Nat.exists_eq_add_of_le hc.1
    have lt : i < bytes.length := by omega
    rw [Memory.read_writeFrom_inside h lt, Nat.add_sub_cancel_left, List.getD_eq_getElem?_getD,
      List.getElem?_eq_getElem lt, Option.getD_some]
  · exact Memory.read_writeFrom_outside m (by omega)

end Sys2Proof.Machine
end

