-- ==== Sys2Proof/Laws/Datapath.lean ====
section
/-! SUPPORT. The arithmetic of the datapath: bounds on the span, the shift and the mask
(40_datapath R60 to R69), and that a field in range fits its span (R62). -/

namespace Sys2Proof.Machine

theorem clampWidth_le (w : Nat) : clampWidth w ≤ 32 := Nat.min_le_right _ _

theorem clampWidth_pos {w : Nat} (h : w ≠ 0) : 0 < clampWidth w := by
  unfold clampWidth Config.fieldMax
  omega

theorem clampWidth_of_le {w : Nat} (h : w ≤ 32) : clampWidth w = w := Nat.min_eq_left h

theorem clampWidth_of_ge {w : Nat} (h : 32 ≤ w) : clampWidth w = 32 := Nat.min_eq_right h

@[simp] theorem clampWidth_clampWidth (w : Nat) : clampWidth (clampWidth w) = clampWidth w :=
  clampWidth_of_le (clampWidth_le w)

theorem byteBegin_le_byteEnd (o w len : Nat) : byteBegin o len ≤ byteEnd o w len := by
  unfold byteBegin byteEnd ceilBytes
  omega

theorem byteEnd_le (o w len : Nat) : byteEnd o w len ≤ len := Nat.min_le_right _ _

/-- The span ends at `byteEnd`, inside the buffer. -/
theorem byteBegin_add_spanLength (o w len : Nat) :
    byteBegin o len + spanLength o w len = byteEnd o w len :=
  Nat.add_sub_cancel' (byteBegin_le_byteEnd o w len)

theorem span_inside (o w len : Nat) : byteBegin o len + spanLength o w len ≤ len := by
  rw [byteBegin_add_spanLength]
  exact byteEnd_le o w len

/-- At most five bytes (40_datapath R62). -/
theorem spanLength_le (o w len : Nat) : spanLength o w len ≤ 5 := by
  have := clampWidth_le w
  unfold spanLength byteEnd byteBegin ceilBytes
  omega

theorem shiftAmount_lt (e : Endian) (o w : Nat) : shiftAmount e o w < 8 := by
  cases e <;> simp only [shiftAmount] <;> omega

/-- Wholly beyond the buffer, the span is empty (40_datapath R62). -/
theorem spanLength_beyond {o len : Nat} (w : Nat) (h : len ≤ o / 8) : spanLength o w len = 0 := by
  have := byteEnd_le o w len
  unfold spanLength byteBegin
  omega

/-- A field that starts inside the buffer starts in byte `o / 8`. -/
theorem byteBegin_inside {o len : Nat} (h : o / 8 < len) : byteBegin o len = o / 8 := by
  unfold byteBegin
  omega

/-- In range the span is not clamped (40_datapath R62). -/
theorem spanLength_inRange {o w len : Nat} (h : fieldInRange o w len) :
    spanLength o w len = ceilBytes (o + clampWidth w) - o / 8 := by
  unfold fieldInRange at h
  unfold spanLength byteEnd byteBegin ceilBytes
  omega

/-- In range the field starts at byte `o / 8`. -/
theorem byteBegin_inRange {o w len : Nat} (h : fieldInRange o w len) : byteBegin o len = o / 8 := by
  unfold fieldInRange at h
  unfold byteBegin
  omega

/-- In a clamped tail the span ends with the buffer (40_datapath R62). -/
theorem spanLength_clampedTail {o w len : Nat} (h : clampedTail o w len) :
    spanLength o w len = len - o / 8 := by
  unfold clampedTail at h
  unfold spanLength byteEnd byteBegin ceilBytes
  omega

/-- In range the field's bits all lie inside the gathered bytes (40_datapath R62). -/
theorem shift_add_width_le {e : Endian} {o w len : Nat} (h : fieldInRange o w len) :
    shiftAmount e o w + clampWidth w ≤ 8 * spanLength o w len := by
  rw [spanLength_inRange h]
  cases e <;> simp only [shiftAmount, ceilBytes] <;> omega

/-- The mask has exactly the low `w'` bits set (40_datapath R68). -/
theorem getLsbD_fieldMask (w j : Nat) : (fieldMask w).getLsbD j = decide (j < clampWidth w) := by
  have hw := clampWidth_le w
  rw [fieldMask, BitVec.getLsbD_ofNat, Nat.testBit_two_pow_sub_one]
  by_cases h : j < clampWidth w
  · simp [h]; omega
  · simp [h]

/-- Bit `i` of what READ extracts is bit `shift + i` of the scratch number, inside the width
(41_read R80, R83). -/
theorem getLsbD_extractField (e : Endian) (o w : Nat) (S : ScratchWord) (i : Nat) :
    (extractField e o w S).getLsbD i =
      (decide (i < clampWidth w) && S.getLsbD (shiftAmount e o w + i)) := by
  have hw := clampWidth_le w
  have := shiftAmount_lt e o w
  rw [extractField, BitVec.getLsbD_setWidth, BitVec.getLsbD_and, BitVec.getLsbD_ushiftRight,
    getLsbD_fieldMask, Bool.and_comm (S.getLsbD _)]
  by_cases h : i < clampWidth w
  · simp [h, show i < 32 by omega]
  · simp [h]

/-- Bits `shift` to `shift + w' - 1` of the merge are the value's, every other bit is the scratch
number's (40_datapath R71). -/
theorem getLsbD_mergeField (e : Endian) (o w : Nat) (v : Word) (S : ScratchWord) (j : Nat) :
    (mergeField e o w v S).getLsbD j =
      if shiftAmount e o w ≤ j ∧ j < shiftAmount e o w + clampWidth w then
        v.getLsbD (j - shiftAmount e o w)
      else S.getLsbD j := by
  have hw := clampWidth_le w
  have hs := shiftAmount_lt e o w
  by_cases hj : j < 64
  · simp only [mergeField, keepMask, BitVec.getLsbD_or, BitVec.getLsbD_and, BitVec.getLsbD_not,
      BitVec.getLsbD_shiftLeft, BitVec.getLsbD_setWidth, getLsbD_fieldMask, hj, decide_true,
      Bool.true_and]
    by_cases h1 : j < shiftAmount e o w
    · simp [h1, show ¬ shiftAmount e o w ≤ j by omega]
    · by_cases h2 : j < shiftAmount e o w + clampWidth w
      · simp [h1, h2, show shiftAmount e o w ≤ j by omega,
          show j - shiftAmount e o w < clampWidth w by omega,
          show j - shiftAmount e o w < 64 by omega]
      · simp [h1, h2, show ¬ j - shiftAmount e o w < clampWidth w by omega]
  · rw [BitVec.getLsbD_of_ge _ _ (by omega), BitVec.getLsbD_of_ge S _ (by omega), if_neg (by omega)]

end Sys2Proof.Machine
end

