-- ==== Sys2Proof/Laws/Scratch.lean ====
section
/-! SUPPORT. The byte-level scratch stages equal the closed forms for either host byte order
(40_datapath R66, R72), and what the bits of the closed forms are. -/

namespace Sys2Proof.Machine

/-- Byte `k` of a scratch register built byte by byte. -/
theorem getD_toList_ofFn (f : Fin 8 → Byte) (k : Nat) :
    (Vector.ofFn f).toList.getD k 0 = if h : k < 8 then f ⟨k, h⟩ else 0 := by
  rw [List.getD_eq_getElem?_getD]
  by_cases h : k < 8
  · rw [dif_pos h, List.getElem?_eq_getElem (by simpa using h)]
    simp
  · rw [dif_neg h, List.getElem?_eq_none (by simpa using h)]
    rfl

theorem getD_toList_getElem (scr : Scratch) (k : Nat) (h : k < 8) :
    scr.toList.getD k 0 = scr[k] := by
  rw [List.getD_eq_getElem?_getD, List.getElem?_eq_getElem (by simpa using h)]
  simp

theorem getD_placeBytes (hostBig : Bool) (bytes : List Byte) {k : Nat} (h : k < 8) :
    (placeBytes hostBig bytes).toList.getD k 0 =
      if spanBase hostBig bytes.length ≤ k ∧ k < spanBase hostBig bytes.length + bytes.length then
        bytes.getD (k - spanBase hostBig bytes.length) 0
      else 0 := by
  simp only [placeBytes]
  rw [getD_toList_ofFn, dif_pos h]

theorem getD_reverseSpan (hostBig : Bool) (n : Nat) (scr : Scratch) {k : Nat} (h : k < 8) :
    (reverseSpan hostBig n scr).toList.getD k 0 =
      if spanBase hostBig n ≤ k ∧ k < spanBase hostBig n + n then
        scr.toList.getD (spanBase hostBig n + n - 1 - (k - spanBase hostBig n)) 0
      else scr.toList.getD k 0 := by
  simp only [reverseSpan]
  rw [getD_toList_ofFn, dif_pos h]

theorem getD_scratchOfNumber (hostBig : Bool) (x : ScratchWord) {k : Nat} (h : k < 8) :
    (scratchOfNumber hostBig x).toList.getD k 0 =
      if hostBig then x.extractLsb' (8 * (7 - k)) 8 else x.extractLsb' (8 * k) 8 := by
  simp only [scratchOfNumber]
  rw [getD_toList_ofFn, dif_pos h]

/-- Bit `8 * q + r` of eight bytes joined, the last given least significant, is bit `r` of byte `q`. -/
theorem getLsbD_joinBytes (b : Fin 8 → Byte) {q r : Nat} (hq : q < 8) (hr : r < 8) :
    (b 7 ++ (b 6 ++ (b 5 ++ (b 4 ++ (b 3 ++ (b 2 ++ (b 1 ++ b 0)))))) : ScratchWord).getLsbD (8 * q + r) =
      (b ⟨q, hq⟩).getLsbD r := by
  interval_cases q <;> simp only [BitVec.getLsbD_append] <;>
    (repeat' split) <;> first | omega | (congr 1; omega)

/-- The two views of the scratch register (10_state R12): bit `j` of the number is bit `j mod 8`
of the byte `j / 8` places from the least significant end. -/
theorem getLsbD_scratchNumber (hostBig : Bool) (scr : Scratch) {j : Nat} (h : j < 64) :
    (scratchNumber hostBig scr).getLsbD j =
      (scr.toList.getD (if hostBig then 7 - j / 8 else j / 8) 0).getLsbD (j % 8) := by
  have hk : (if hostBig then 7 - j / 8 else j / 8) < 8 := by split <;> omega
  rw [getD_toList_getElem scr _ hk]
  obtain ⟨q, r, hr, rfl⟩ : ∃ q r, r < 8 ∧ j = 8 * q + r := ⟨j / 8, j % 8, by omega, by omega⟩
  have hq : q < 8 := by omega
  have hdiv : (8 * q + r) / 8 = q := by omega
  have hmod : (8 * q + r) % 8 = r := by omega
  simp only [hdiv, hmod]
  cases hostBig
  · have key := getLsbD_joinBytes (fun k => scr[k.val]) hq hr
    rw [scratchNumber, if_neg Bool.false_ne_true]
    exact key
  · have key := getLsbD_joinBytes (fun k => scr[7 - k.val]) hq hr
    rw [scratchNumber, if_pos rfl]
    exact key

/-- Bit `j` of a little-endian number is bit `j mod 8` of its byte `j / 8` (40_datapath R66). -/
theorem getLsbD_littleNumber (bytes : List Byte) {j : Nat} (h : j < 64) :
    (littleNumber bytes).getLsbD j = (bytes.getD (j / 8) 0).getLsbD (j % 8) := by
  induction bytes generalizing j with
  | nil => simp [littleNumber]
  | cons b bs ih =>
    simp only [littleNumber, BitVec.getLsbD_or, BitVec.getLsbD_setWidth, BitVec.getLsbD_shiftLeft, h,
      decide_true, Bool.true_and]
    by_cases lt : j < 8
    · rw [show j / 8 = 0 by omega, show j % 8 = j by omega]
      simp [lt]
    · rw [show j / 8 = (j - 8) / 8 + 1 by omega, show j % 8 = (j - 8) % 8 by omega, ih (by omega),
        BitVec.getLsbD_of_ge b j (by omega)]
      simp [lt]

/-- Bit `j` of the gathered number `S`: it lies in byte `j / 8` of the span, counted from the span's
first byte (little) or from its last (big) (40_datapath R66). -/
theorem getLsbD_spanNumber (e : Endian) (bytes : List Byte) {j : Nat} (h : j < 64) :
    (spanNumber e bytes).getLsbD j =
      match e with
      | .little => (bytes.getD (j / 8) 0).getLsbD (j % 8)
      | .big =>
        if j / 8 < bytes.length then (bytes.getD (bytes.length - 1 - j / 8) 0).getLsbD (j % 8)
        else false := by
  cases e with
  | little => exact getLsbD_littleNumber bytes h
  | big =>
    simp only [spanNumber]
    rw [getLsbD_littleNumber _ h]
    split
    · rename_i lt
      rw [List.getD_eq_getElem?_getD, List.getElem?_reverse lt, List.getD_eq_getElem?_getD]
    · rename_i ge
      rw [List.getD_eq_getElem?_getD, List.getElem?_eq_none (by simpa using ge)]
      simp

/-- The gather's byte-level stages give the closed form, whatever the host byte order
(40_datapath R66). -/
theorem scratchNumber_gatherScratch (hostBig : Bool) (e : Endian) {bytes : List Byte}
    (hn : bytes.length ≤ 8) :
    scratchNumber hostBig (gatherScratch hostBig e bytes) = spanNumber e bytes := by
  apply BitVec.eq_of_getLsbD_eq
  intro j hj
  have zero : ∀ k, bytes.length ≤ k → bytes.getD k 0 = 0 := fun k hk => by
    rw [List.getD_eq_getElem?_getD, List.getElem?_eq_none hk]; rfl
  rw [getLsbD_scratchNumber _ _ hj, getLsbD_spanNumber _ _ hj]
  cases e <;> cases hostBig <;>
    simp only [gatherScratch, swapLanes, reduceCtorEq, decide_false, decide_true, ne_eq,
      not_true_eq_false, not_false_eq_true, Bool.false_eq_true, Bool.true_eq_false, if_true, if_false]
  · rw [getD_placeBytes _ _ (by omega)]
    simp only [spanBase, Bool.false_eq_true, if_false, Nat.zero_le, true_and, Nat.zero_add, Nat.sub_zero]
    split
    · rfl
    · rw [zero _ (by omega)]
  · rw [getD_reverseSpan _ _ _ (by omega)]
    simp only [spanBase, if_true]
    split
    · rw [getD_placeBytes _ _ (by omega)]
      simp only [spanBase, if_true]
      rw [if_pos (by omega)]
      congr 2
      omega
    · rw [getD_placeBytes _ _ (by omega)]
      simp only [spanBase, if_true]
      rw [if_neg (by omega), zero _ (by omega)]
  · rw [getD_reverseSpan _ _ _ (by omega)]
    simp only [spanBase, Bool.false_eq_true, if_false, Nat.zero_le, true_and, Nat.zero_add, Nat.sub_zero]
    split
    · rw [getD_placeBytes _ _ (by omega)]
      simp only [spanBase, Bool.false_eq_true, if_false, Nat.zero_le, true_and, Nat.zero_add, Nat.sub_zero]
      rw [if_pos (by omega)]
    · rw [getD_placeBytes _ _ (by omega)]
      simp only [spanBase, Bool.false_eq_true, if_false, Nat.zero_le, true_and, Nat.zero_add, Nat.sub_zero]
      rw [if_neg (by omega)]
      simp
  · rw [getD_placeBytes _ _ (by omega)]
    simp only [spanBase, if_true]
    by_cases lt : j / 8 < bytes.length
    · rw [if_pos (by omega), if_pos lt]
      congr 2
      omega
    · rw [if_neg (by omega), if_neg lt]
      simp

/-- The scatter's byte-level stages give the closed form, whatever the host byte order
(40_datapath R72). -/
theorem scratchSpan_scatterScratch (hostBig : Bool) (e : Endian) {n : Nat} (hn : n ≤ 8)
    (new : ScratchWord) :
    scratchSpan hostBig n (scatterScratch hostBig e n new) = (List.range n).map (spanByte e n new) := by
  simp only [scratchSpan]
  refine List.map_congr_left fun i hi => ?_
  have hi : i < n := List.mem_range.1 hi
  have hbn : spanBase hostBig n + n ≤ 8 := by unfold spanBase; split <;> omega
  have hb : spanBase hostBig n + i < 8 := by omega
  cases e <;> cases hostBig <;>
    simp only [scatterScratch, swapLanes, reduceCtorEq, decide_false, decide_true, ne_eq,
      not_true_eq_false, not_false_eq_true, Bool.false_eq_true, Bool.true_eq_false, if_true, if_false,
      spanByte]
  · rw [getD_scratchOfNumber _ _ hb]
    simp [spanBase]
  · rw [getD_reverseSpan _ _ _ hb, if_pos (by omega), getD_scratchOfNumber _ _ (by omega)]
    simp only [spanBase, if_true]
    congr 1
    omega
  · rw [getD_reverseSpan _ _ _ hb, if_pos (by omega), getD_scratchOfNumber _ _ (by omega)]
    simp only [spanBase, Bool.false_eq_true, if_false]
    congr 1
    omega
  · rw [getD_scratchOfNumber _ _ hb]
    simp only [spanBase, if_true]
    congr 1
    omega

/-- READ's value through the closed form (41_read R80). -/
theorem readValue_eq (hostBig : Bool) (e : Endian) (o w : Nat) {bytes : List Byte}
    (hn : bytes.length ≤ 8) :
    readValue hostBig e o w bytes = extractField e o w (spanNumber e bytes) := by
  rw [readValue, scratchNumber_gatherScratch hostBig e hn]

/-- WRITE's bytes through the closed form (42_write R90). -/
theorem writeBytes_eq (hostBig : Bool) (e : Endian) (o w : Nat) (v : Word) {bytes : List Byte}
    (hn : bytes.length ≤ 8) :
    writeBytes hostBig e o w v bytes =
      (List.range bytes.length).map
        (spanByte e bytes.length (mergeField e o w v (spanNumber e bytes))) := by
  rw [writeBytes, writeScratch, scratchNumber_gatherScratch hostBig e hn,
    scratchSpan_scatterScratch hostBig e hn]

@[simp] theorem length_writeBytes (hostBig : Bool) (e : Endian) (o w : Nat) (v : Word)
    (bytes : List Byte) : (writeBytes hostBig e o w v bytes).length = bytes.length := by
  simp [writeBytes, scratchSpan]

/-- Bit `i` of READ's value (41_read R80, R83). -/
theorem getLsbD_readValue (hostBig : Bool) (e : Endian) (o w : Nat) {bytes : List Byte}
    (hn : bytes.length ≤ 8) (i : Nat) :
    (readValue hostBig e o w bytes).getLsbD i =
      (decide (i < clampWidth w) && (spanNumber e bytes).getLsbD (shiftAmount e o w + i)) := by
  rw [readValue_eq hostBig e o w hn, getLsbD_extractField]

/-- Bit `p` of a byte of the closed-form scatter (40_datapath R72). -/
theorem getLsbD_spanByte (e : Endian) (n : Nat) (new : ScratchWord) (i : Nat) {p : Nat} (hp : p < 8) :
    (spanByte e n new i).getLsbD p =
      match e with
      | .little => new.getLsbD (8 * i + p)
      | .big => new.getLsbD (8 * (n - 1 - i) + p) := by
  cases e <;> simp [spanByte, hp]

end Sys2Proof.Machine
end

