-- ==== Sys2Proof/Laws/Numbers.lean ====
section
/-! SUPPORT. The datapath's 64-bit words as natural numbers: the gathered number is the sum of
40_datapath R66, and READ's value is that sum shifted and masked (41_read R80). -/

namespace Sys2Proof.Machine

/-- Bytes joined with the first least significant stay below 256 to their count. -/
theorem toNat_littleNumber_cons (b : Byte) (bs : List Byte) (h : bs.length ≤ 7)
    (lt : (littleNumber bs).toNat < 2 ^ (8 * bs.length)) :
    (littleNumber (b :: bs)).toNat = b.toNat + 2 ^ 8 * (littleNumber bs).toNat := by
  have hp : (2 : Nat) ^ (8 * bs.length) ≤ 2 ^ 56 := Nat.pow_le_pow_right (by norm_num) (by omega)
  have hb := b.isLt
  have e1 : (b.setWidth 64).toNat = b.toNat := by
    rw [BitVec.toNat_setWidth]
    omega
  have e2 : (littleNumber bs <<< 8).toNat = 2 ^ 8 * (littleNumber bs).toNat := by
    rw [BitVec.toNat_shiftLeft, Nat.shiftLeft_eq, Nat.mod_eq_of_lt (by omega), Nat.mul_comm]
  rw [littleNumber, BitVec.toNat_or, e1, e2, Nat.or_comm, ← Nat.two_pow_add_eq_or_of_lt hb,
    Nat.add_comm]

theorem toNat_littleNumber_lt (bytes : List Byte) (h : bytes.length ≤ 8) :
    (littleNumber bytes).toNat < 2 ^ (8 * bytes.length) := by
  induction bytes with
  | nil => simp [littleNumber]
  | cons b bs ih =>
    rw [List.length_cons] at h ⊢
    have lt := ih (by omega)
    rw [toNat_littleNumber_cons b bs (by omega) lt, show 8 * (bs.length + 1) = 8 * bs.length + 8 by omega,
      Nat.pow_add]
    have := b.isLt
    omega

/-- The little-endian number of bytes is the sum of 40_datapath R66. -/
theorem toNat_littleNumber (bytes : List Byte) (h : bytes.length ≤ 8) :
    (littleNumber bytes).toNat =
      ∑ i ∈ Finset.range bytes.length, (bytes.getD i 0).toNat * 2 ^ (8 * i) := by
  induction bytes with
  | nil => simp [littleNumber]
  | cons b bs ih =>
    rw [List.length_cons] at h
    rw [toNat_littleNumber_cons b bs (by omega) (toNat_littleNumber_lt bs (by omega)), ih (by omega),
      List.length_cons, Finset.sum_range_succ', Finset.mul_sum, Nat.add_comm]
    congr 1
    · refine Finset.sum_congr rfl fun i _ => ?_
      rw [List.getD_cons_succ, show 8 * (i + 1) = 8 * i + 8 by omega, Nat.pow_add]
      ring
    · simp

/-- The gathered number of a span of the buffer, little data (40_datapath R66). -/
theorem toNat_spanNumber_little (m : Memory) (a : Nat) {n : Nat} (h : n ≤ 8) :
    (spanNumber .little (m.readFrom a n)).toNat =
      ∑ i ∈ Finset.range n, (m.read (a + i)).toNat * 2 ^ (8 * i) := by
  rw [spanNumber, toNat_littleNumber _ (by simpa using h), Memory.length_readFrom]
  refine Finset.sum_congr rfl fun i hi => ?_
  rw [Memory.getD_readFrom m (Finset.mem_range.1 hi)]

/-- The gathered number of a span of the buffer, big data (40_datapath R66). -/
theorem toNat_spanNumber_big (m : Memory) (a : Nat) {n : Nat} (h : n ≤ 8) :
    (spanNumber .big (m.readFrom a n)).toNat =
      ∑ i ∈ Finset.range n, (m.read (a + i)).toNat * 2 ^ (8 * (n - 1 - i)) := by
  rw [spanNumber, toNat_littleNumber _ (by simpa using h), List.length_reverse,
    Memory.length_readFrom, ← Finset.sum_range_reflect]
  refine Finset.sum_congr rfl fun i hi => ?_
  have hi := Finset.mem_range.1 hi
  rw [List.getD_eq_getElem?_getD, List.getElem?_reverse (by simp; omega), Memory.length_readFrom,
    ← List.getD_eq_getElem?_getD, Memory.getD_readFrom m (by omega)]
  congr 3
  omega

/-- READ's value is the scratch number, shifted right and masked (41_read R80). -/
theorem toNat_extractField (e : Endian) (o w : Nat) (S : ScratchWord) :
    (extractField e o w S).toNat = S.toNat / 2 ^ shiftAmount e o w % 2 ^ clampWidth w := by
  have hw := clampWidth_le w
  have h1 : (2 : Nat) ^ clampWidth w ≤ 2 ^ 32 := Nat.pow_le_pow_right (by norm_num) hw
  have h2 : 0 < (2 : Nat) ^ clampWidth w := Nat.two_pow_pos _
  have hm : (fieldMask w).toNat = 2 ^ clampWidth w - 1 := by
    rw [fieldMask, BitVec.toNat_ofNat, Nat.mod_eq_of_lt (by omega)]
  rw [extractField, BitVec.toNat_setWidth, BitVec.toNat_and, BitVec.toNat_ushiftRight, hm,
    Nat.and_two_pow_sub_one_eq_mod, Nat.shiftRight_eq_div_pow, Nat.mod_eq_of_lt]
  exact lt_of_lt_of_le (Nat.mod_lt _ h2) h1

end Sys2Proof.Machine
end

