-- ==== Sys2Proof/Laws/Exec.lean ====
section
/-! SUPPORT. What the three operations answer, once for all states: READ, WRITE and SETBIT never
stop, and their next state is given in closed form (40_datapath R74; 60_exceptions R110). -/

namespace Sys2Proof.Machine

/-- The bytes of a span fit the scratch register. -/
theorem length_spanBytes_le (m : Memory) (o w len : Nat) : (spanBytes m o w len).length ≤ 8 := by
  rw [length_spanBytes]
  have := spanLength_le o w len
  omega

/-- The gather of a span always answers, with the bytes of the span (20_memory R30, R34). -/
theorem State.gather_span (s : State) (o w : Nat) :
    s.gather (byteBegin o s.len) (spanLength o w s.len) = some (spanBytes s.mem o w s.len) := by
  rw [State.gather_eq, if_pos (.inr (span_inside o w s.len)), spanBytes_eq_readFrom]

/-- The scatter of as many bytes as a span has always answers (20_memory R31, R34). -/
theorem State.scatter_span (s : State) (o w : Nat) {bytes : List Byte}
    (h : bytes.length = spanLength o w s.len) :
    s.scatter (byteBegin o s.len) bytes =
      some { s with mem := s.mem.writeFrom (byteBegin o s.len) bytes } := by
  rw [State.scatter_eq, if_pos (.inr (by rw [h]; exact span_inside o w s.len))]

/-- The state a READ leaves. -/
def State.afterRead (s : State) (e : Endian) (o w : Nat) : State :=
  if suppressed s.build.strict (fieldStatus o w s.len) then s.respond 0 (fieldStatus o w s.len)
  else
    (s.withScr (gatherScratch s.build.hostBig e (spanBytes s.mem o w s.len))).respond
      (readValue s.build.hostBig e o w (spanBytes s.mem o w s.len)) (fieldStatus o w s.len)

/-- The memory a WRITE leaves when it is not suppressed. -/
def State.writtenMem (s : State) (e : Endian) (o w : Nat) (v : Word) : Memory :=
  s.mem.writeFrom (byteBegin o s.len)
    (writeBytes s.build.hostBig e o w v (spanBytes s.mem o w s.len))

/-- The state a WRITE leaves. -/
def State.afterWrite (s : State) (e : Endian) (o w : Nat) (v : Word) : State :=
  if suppressed s.build.strict (fieldStatus o w s.len) then s.respond 0 (fieldStatus o w s.len)
  else
    (({ s with mem := s.writtenMem e o w v } : State).withScr
      (writeScratch s.build.hostBig e o w v (spanBytes s.mem o w s.len))).respond 0
        (fieldStatus o w s.len)

/-- The state a SETBIT leaves. -/
def State.afterSetBit (s : State) (reversed : Bool) (o : Nat) : State :=
  if o / 8 < s.len then
    ({ s with mem := s.mem.write (o / 8) (setBitByte reversed o (s.mem.read (o / 8))) } : State).respond
      0 (setBitStatus o s.len)
  else s.respond 0 (setBitStatus o s.len)

theorem readField_eq (e : Endian) (o w : Nat) (s : State) :
    readField e o w s = .next (s.afterRead e o w) := by
  simp only [readField, State.afterRead, State.gather_span]
  split <;> rfl

theorem writeField_eq (e : Endian) (o w : Nat) (v : Word) (s : State) :
    writeField e o w v s = .next (s.afterWrite e o w v) := by
  simp only [writeField, State.afterWrite, State.gather_span]
  split
  · rfl
  · rw [State.scatter_span s o w (by simp)]
    rfl

/-- A SETBIT inside the buffer raises no flag, so neither setting of `STRICT` suppresses it
(43_setbit R100, 60_exceptions R113). -/
theorem suppressed_setBitStatus {o len : Nat} (h : o / 8 < len) (strict : Bool) :
    suppressed strict (setBitStatus o len) = false := by
  have : ¬ len ≤ o / 8 := by omega
  cases strict <;> simp [suppressed, setBitStatus, this]

theorem setSingleBit_eq (reversed : Bool) (o : Nat) (s : State) :
    setSingleBit reversed o s = .next (s.afterSetBit reversed o) := by
  by_cases h : o / 8 < s.len
  · simp only [setSingleBit, State.afterSetBit, State.memRead, State.memWrite, if_pos h,
      if_neg (show ¬ o / 8 ≥ s.len by omega), suppressed_setBitStatus h, Bool.false_eq_true, if_false]
  · simp only [setSingleBit, State.afterSetBit, if_neg h, if_pos (show o / 8 ≥ s.len by omega)]

/-- The next state of every instruction from every state. -/
def State.after (s : State) (i : Instr) : State :=
  match i with
  | .readL o w => s.afterRead .little o w
  | .writeL o w v => s.afterWrite .little o w v
  | .setbit o => s.afterSetBit false o
  | .readB o w => s.afterRead .big o w
  | .writeB o w v => s.afterWrite .big o w v
  | .setbitR o => s.afterSetBit true o

/-- What `exec` can do: answer the next state `s.after i`, and nothing else. -/
theorem exec_eq (i : Instr) (s : State) : exec i s = .next (s.after i) := by
  cases i with
  | readL o w => exact readField_eq .little o w s
  | writeL o w v => exact writeField_eq .little o w v s
  | setbit o => exact setSingleBit_eq false o s
  | readB o w => exact readField_eq .big o w s
  | writeB o w v => exact writeField_eq .big o w v s
  | setbitR o => exact setSingleBit_eq true o s

/-- A byte a WRITE leaves inside its span (40_datapath R72). -/
theorem State.read_writtenMem_inside (s : State) (h : s.mem.wf = true) (e : Endian) (o w : Nat)
    (v : Word) {i : Nat} (hi : i < spanLength o w s.len) :
    (s.writtenMem e o w v).read (byteBegin o s.len + i) =
      spanByte e (spanLength o w s.len)
        (mergeField e o w v (spanNumber e (spanBytes s.mem o w s.len))) i := by
  rw [State.writtenMem, Memory.read_writeFrom_inside h (by simpa using hi)]
  simp only [writeBytes_eq _ _ _ _ _ (length_spanBytes_le _ _ _ _), length_spanBytes,
    List.getElem_map, List.getElem_range]

/-- A byte a WRITE leaves outside its span (20_memory R29). -/
theorem State.read_writtenMem_outside (s : State) (e : Endian) (o w : Nat) (v : Word) {a : Nat}
    (h : a < byteBegin o s.len ∨ byteEnd o w s.len ≤ a) :
    (s.writtenMem e o w v).read a = s.mem.read a := by
  rw [State.writtenMem]
  refine Memory.read_writeFrom_outside _ ?_
  rw [length_writeBytes, length_spanBytes, byteBegin_add_spanLength]
  exact h

theorem State.writtenMem_wf (s : State) (h : s.mem.wf = true) (e : Endian) (o w : Nat) (v : Word) :
    (s.writtenMem e o w v).wf = true :=
  Memory.writeFrom_wf h _ _

theorem State.writtenMem_below (s : State) {hi : Nat} (h : s.mem.below hi = true) (hl : s.len ≤ hi)
    (e : Endian) (o w : Nat) (v : Word) : (s.writtenMem e o w v).below hi = true := by
  refine Memory.writeFrom_below h (.inr ?_)
  rw [length_writeBytes, length_spanBytes]
  have := span_inside o w s.len
  omega

/-- Every instruction leaves the fields other than memory, scratch and responses alone. -/
theorem State.after_frame (s : State) (i : Instr) :
    (s.after i).len = s.len ∧ (s.after i).inFlight = s.inFlight ∧ (s.after i).answers = s.answers ∧
      (s.after i).queue = s.queue ∧ (s.after i).build = s.build := by
  cases i <;> simp only [State.after, State.afterRead, State.afterWrite, State.afterSetBit] <;>
    split <;> simp

/-- Every instruction keeps the canonical form of the memory. -/
theorem State.after_wf (s : State) (i : Instr) (h : s.mem.wf = true) :
    (s.after i).mem.wf = true := by
  cases i <;> simp only [State.after, State.afterRead, State.afterWrite, State.afterSetBit] <;>
    split <;> simp [h, State.writtenMem_wf, Memory.write_wf]

/-- Every instruction keeps the memory's addresses below a bound on the buffer. -/
theorem State.after_below (s : State) (i : Instr) {hi : Nat} (h : s.mem.below hi = true)
    (hl : s.len ≤ hi) : (s.after i).mem.below hi = true := by
  cases i <;> simp only [State.after, State.afterRead, State.afterWrite, State.afterSetBit] <;>
    split <;> rename_i c
  case setbit.isTrue => exact Memory.write_below h (by omega) _
  case setbitR.isTrue => exact Memory.write_below h (by omega) _
  all_goals first
    | exact h
    | exact s.writtenMem_below h hl _ _ _ _

end Sys2Proof.Machine
end

