-- ==== Sys2Proof/Laws/Instances.lean ====
section
/-! SUPPORT. What presenting a command to an instance and one byte access of an instance can do,
once for all states. -/

namespace Sys2Proof.Machine

theorem State.flightOf_some {s : State} {k : Nat} {f : Flight} (h : s.flightOf k = some f) :
    f ∈ s.inFlight ∧ f.inst = k :=
  ⟨List.mem_of_find?_eq_some h, by simpa using List.find?_some h⟩

theorem State.flightOf_none {s : State} {k : Nat} :
    s.flightOf k = none ↔ ∀ f ∈ s.inFlight, f.inst ≠ k := by
  simp [State.flightOf]

@[simp] theorem State.flightOf_putFlight (s : State) (f : Flight) :
    (s.putFlight f).flightOf f.inst = some f := by
  simp [State.flightOf]

theorem State.flightOf_dropFlight (s : State) (k : Nat) : (s.dropFlight k).flightOf k = none := by
  rw [State.flightOf_none]
  simp

theorem State.flightOf_finish (s : State) (f : Flight) (r : Word) :
    (s.finish f r).flightOf f.inst = none :=
  State.flightOf_dropFlight s f.inst

/-- An instance with no operation in progress has none to drop. -/
theorem State.filter_inFlight {s : State} {k : Nat} (h : s.flightOf k = none) :
    (s.inFlight.filter fun f => decide (f.inst ≠ k)) = s.inFlight :=
  List.filter_eq_self.2 fun f hf => by simpa using State.flightOf_none.1 h f hf

/-- Settling the writes of an operation changes only the operations in progress and the answers. -/
theorem settleWrites_frame (s : State) (f : Flight) (r : Word) (left : List Host.Cell) :
    (settleWrites s f r left).mem = s.mem ∧ (settleWrites s f r left).len = s.len ∧
      (settleWrites s f r left).scr = s.scr ∧ (settleWrites s f r left).responses = s.responses ∧
      (settleWrites s f r left).queue = s.queue ∧ (settleWrites s f r left).build = s.build := by
  cases left <;> simp [settleWrites]

/-- Settling the reads of an operation changes only the operations in progress and the answers. -/
theorem settleReads_frame (s : State) (f : Flight) (left : List Nat) (got : List Host.Cell) :
    (settleReads s f left got).mem = s.mem ∧ (settleReads s f left got).len = s.len ∧
      (settleReads s f left got).scr = s.scr ∧ (settleReads s f left got).responses = s.responses ∧
      (settleReads s f left got).queue = s.queue ∧ (settleReads s f left got).build = s.build := by
  cases left with
  | nil => exact settleWrites_frame s f _ _
  | cons a as => simp [settleReads]

/-- Settling the writes of an operation answers for it exactly when none is left. -/
theorem settleWrites_answers (s : State) (f : Flight) (r : Word) (left : List Host.Cell) :
    (settleWrites s f r left).answers =
      if left = [] then
        s.answers ++ [{ inst := f.inst, response := { rdata := r, status := statusOf f.op f.len } }]
      else s.answers := by
  cases left <;> rfl

/-- After its writes are settled, the operations in progress are the other instances' and, where
bytes are left to write, the operation waiting for them. -/
theorem settleWrites_inFlight (s : State) (f : Flight) (r : Word) (left : List Host.Cell) :
    (settleWrites s f r left).inFlight =
      (if left = [] then [] else [{ f with phase := .writing left }]) ++
        s.inFlight.filter fun g => decide (g.inst ≠ f.inst) := by
  cases left <;> simp [settleWrites]

/-- After its reads are settled, the operations in progress are the other instances' and, where
accesses are left, the operation waiting for them. -/
theorem settleReads_inFlight (s : State) (f : Flight) (left : List Nat) (got : List Host.Cell) :
    (settleReads s f left got).inFlight =
      (if left = [] then
        if pendingWrites s.build.hostBig f got = [] then []
        else [{ f with phase := .writing (pendingWrites s.build.hostBig f got) }]
      else [{ f with phase := .reading left got }]) ++
        s.inFlight.filter fun g => decide (g.inst ≠ f.inst) := by
  cases left with
  | nil => simpa [settleReads] using settleWrites_inFlight s f _ _
  | cons a as => simp [settleReads]

/-- What presenting a command to an instance can do: be refused by a busy instance, or answer a
reserved word or a suppressed operation at once, or start the operation. -/
theorem issue_cases (k : Nat) (c : Descriptor) (len : BitVec 32) (s : State) :
    ((s.flightOf k).isSome ∧ issue k c len s = .refused .instanceBusy) ∨
      (s.flightOf k = none ∧
        ((∃ r, decode c = .error r) ∧ issue k c len s = .next (s.answer k 0 reservedStatus) ∨
          ∃ i, decode c = .ok i ∧
            (suppressed s.build.strict (statusOf i len.toNat) = true ∧
                issue k c len s = .next
                  (s.finish { inst := k, op := i, len := len.toNat, phase := .reading [] [] } 0) ∨
              suppressed s.build.strict (statusOf i len.toNat) = false ∧
                issue k c len s = .next
                  (settleReads s { inst := k, op := i, len := len.toNat, phase := .reading [] [] }
                    (addressesOf i len.toNat) [])))) := by
  unfold issue
  cases hf : s.flightOf k with
  | some f => exact .inl ⟨rfl, rfl⟩
  | none =>
    refine .inr ⟨rfl, ?_⟩
    cases hd : decode c with
    | error r => exact .inl ⟨⟨r, rfl⟩, rfl⟩
    | ok i =>
      refine .inr ⟨i, rfl, ?_⟩
      cases hs : suppressed s.build.strict (statusOf i len.toNat) with
      | true => exact .inl ⟨rfl, by simp [hs]⟩
      | false => exact .inr ⟨rfl, by simp [hs]⟩

/-- What one byte access of an instance can do: nothing, one read, one write, or a stop at an
address outside the instance's buffer. -/
theorem access_cases (k a : Nat) (s : State) :
    access k a s = .next s ∨
      ∃ f, s.flightOf k = some f ∧
        ((∃ left got, f.phase = .reading left got ∧ a ∈ left ∧ a < f.len ∧
            access k a s = .next (settleReads s f (left.erase a) ((a, s.mem.read a) :: got))) ∨
          (∃ left b, f.phase = .writing left ∧ (a, b) ∈ left ∧ a < f.len ∧
            access k a s = .next (settleWrites { s with mem := s.mem.write a b } f 0
              (left.filter fun d => decide (d.1 ≠ a)))) ∨
          ¬ a < f.len ∧ access k a s = .fault .outsideBuffer ∧
            ((∃ left got, f.phase = .reading left got ∧ a ∈ left) ∨
              ∃ left b, f.phase = .writing left ∧ (a, b) ∈ left)) := by
  unfold access
  cases hf : s.flightOf k with
  | none => exact .inl rfl
  | some f =>
    cases hp : f.phase with
    | reading left got =>
      by_cases ha : a ∈ left
      · refine .inr ⟨f, rfl, ?_⟩
        by_cases hl : a < f.len
        · exact .inl ⟨left, got, hp, ha, hl, by simp [hp, ha, hl]⟩
        · exact .inr (.inr ⟨hl, by simp [hp, ha, hl], .inl ⟨left, got, hp, ha⟩⟩)
      · exact .inl (by simp [hp, ha])
    | writing left =>
      cases hc : left.find? (fun c => decide (c.1 = a)) with
      | none => exact .inl (by simp [hp, hc])
      | some c =>
        have mem := List.mem_of_find?_eq_some hc
        have eq : c.1 = a := by simpa using List.find?_some hc
        obtain ⟨x, b⟩ := c
        simp only at eq
        subst eq
        refine .inr ⟨f, rfl, ?_⟩
        by_cases hl : x < f.len
        · exact .inr (.inl ⟨left, b, hp, mem, hl, by simp [hp, hc, hl]⟩)
        · exact .inr (.inr ⟨hl, by simp [hp, hc, hl], .inr ⟨left, b, hp, mem⟩⟩)

/-- The addresses of an operation are inside its buffer (20_memory R34). -/
theorem addressesOf_lt {i : Instr} {len a : Nat} (h : a ∈ addressesOf i len) : a < len := by
  have field : ∀ o w, a ∈ fieldAddresses o w len → a < len := by
    intro o w h
    simp only [fieldAddresses, List.mem_map, List.mem_range] at h
    obtain ⟨j, hj, rfl⟩ := h
    have := span_inside o w len
    omega
  have bit : ∀ o, a ∈ setBitAddresses o len → a < len := by
    intro o h
    unfold setBitAddresses at h
    split at h <;> simp_all
  cases i <;> first | exact field _ _ h | exact bit _ h

/-- No address of an operation comes twice (20_memory R30 to R32). -/
theorem addressesOf_nodup (i : Instr) (len : Nat) : (addressesOf i len).Nodup := by
  have field : ∀ o w, (fieldAddresses o w len).Nodup := fun o w =>
    List.Nodup.map (fun x y h => by simpa using h) List.nodup_range
  have bit : ∀ o, (setBitAddresses o len).Nodup := by
    intro o
    unfold setBitAddresses
    split <;> simp
  cases i <;> first | exact field _ _ | exact bit _

/-- The writes of an operation go to its own addresses (20_memory R31). -/
theorem pendingWrites_mem {hostBig : Bool} {f : Flight} {got : List Host.Cell} {c : Host.Cell}
    (h : c ∈ pendingWrites hostBig f got) : c.1 ∈ addressesOf f.op f.len :=
  (List.of_mem_zip (show (c.1, c.2) ∈ _ from h)).1

@[simp] theorem advance_of_none {s : State} (h : s.inFlight = []) : advance s = .next s := by
  rw [advance, h]

/-- What going on by itself can do: nothing with no operation in progress, otherwise an access of the
operation in front, or its end where it has none left. -/
theorem advance_cases {s t : State} (h : advance s = .next t) :
    (s.inFlight = [] ∧ t = s) ∨
      ∃ f fs, s.inFlight = f :: fs ∧
        ((∃ a, access f.inst a s = .next t) ∨
          (∃ got, f.phase = .reading [] got ∧ t = settleReads s f [] got) ∨
          (f.phase = .writing [] ∧ t = s.finish f 0)) := by
  unfold advance at h
  cases hf : s.inFlight with
  | nil =>
    rw [hf] at h
    cases h
    exact .inl ⟨rfl, rfl⟩
  | cons f fs =>
    rw [hf] at h
    refine .inr ⟨f, fs, rfl, ?_⟩
    cases hp : f.phase with
    | reading left got =>
      cases left with
      | nil =>
        simp only [hp] at h
        cases h
        exact .inr (.inl ⟨got, rfl, rfl⟩)
      | cons a as =>
        simp only [hp] at h
        exact .inl ⟨a, h⟩
    | writing left =>
      cases left with
      | nil =>
        simp only [hp] at h
        cases h
        exact .inr (.inr ⟨rfl, rfl⟩)
      | cons c cs =>
        simp only [hp] at h
        exact .inl ⟨c.1, h⟩

/-- The operation in front is its instance's. -/
theorem State.flightOf_front {s : State} {f : Flight} {fs : List Flight} (h : s.inFlight = f :: fs) :
    s.flightOf f.inst = some f := by
  simp [State.flightOf, h]

/-- Accesses in the name of an instance with no operation in progress do nothing. -/
theorem accesses_of_idle (k : Nat) (addrs : List Nat) {s : State} (h : s.flightOf k = none) :
    accesses k addrs s = .next s := by
  induction addrs with
  | nil => rfl
  | cons a as ih =>
    have hx : access k a s = .next s := by simp [access, h]
    rw [accesses, hx]
    exact ih

/-- Two lists of accesses in a row. -/
theorem accesses_append (k : Nat) (as bs : List Nat) {s t : State}
    (h : accesses k as s = .next t) : accesses k (as ++ bs) s = accesses k bs t := by
  induction as generalizing s with
  | nil => cases h; rfl
  | cons a as ih =>
    rw [List.cons_append]
    rw [accesses] at h ⊢
    cases hx : access k a s with
    | next u => rw [hx] at h; exact ih h
    | fault r => rw [hx] at h; cases h
    | refused r => rw [hx] at h; cases h

end Sys2Proof.Machine
end

