-- ==== Sys2Proof/Laws/Step.lean ====
section
/-! SUPPORT. What a step can do, once: the operations in progress go on when no act is queued,
otherwise the first act of the queue takes place on the state without it. -/

namespace Sys2Proof.Machine

/-- A step that answers a next state: operations going on or idle, one instruction, the answer to a
reserved word, a host store, a reset, or one act of another instance. -/
theorem step_cases {s t : State} (h : step s = .next t) :
    (s.queue = [] ∧ advance s = .next t) ∨
      ∃ e rest, s.queue = e :: rest ∧
        ((∃ c len i, e = .command c len ∧ decode c = .ok i ∧
            t = ((s.withQueue rest).present len).after i) ∨
          (∃ c len r, e = .command c len ∧ decode c = .error r ∧
            t = ((s.withQueue rest).present len).respondReserved) ∨
          (∃ a b, e = .store a b ∧ t = (s.withQueue rest).hostStore a b) ∨
          (e = .reset ∧ t = (s.withQueue rest).resetByHost) ∨
          (∃ k c len, e = .issue k c len ∧ issue k c len (s.withQueue rest) = .next t) ∨
          ∃ k a, e = .access k a ∧ access k a (s.withQueue rest) = .next t) := by
  unfold step at h
  cases hq : s.queue with
  | nil =>
    simp only [hq] at h
    exact .inl ⟨rfl, h⟩
  | cons e rest =>
    refine .inr ⟨e, rest, rfl, ?_⟩
    cases e with
    | command c len =>
      cases hd : decode c with
      | ok i =>
        simp only [hq, hd, exec_eq, Host.Outcome.next.injEq] at h
        exact .inl ⟨c, len, i, rfl, hd, h.symm⟩
      | error r =>
        simp only [hq, hd, Host.Outcome.next.injEq] at h
        exact .inr (.inl ⟨c, len, r, rfl, hd, h.symm⟩)
    | store a b =>
      simp only [hq, Host.Outcome.next.injEq] at h
      exact .inr (.inr (.inl ⟨a, b, rfl, h.symm⟩))
    | reset =>
      simp only [hq, Host.Outcome.next.injEq] at h
      exact .inr (.inr (.inr (.inl ⟨rfl, h.symm⟩)))
    | issue k c len =>
      simp only [hq] at h
      exact .inr (.inr (.inr (.inr (.inl ⟨k, c, len, rfl, h⟩))))
    | access k a =>
      simp only [hq] at h
      exact .inr (.inr (.inr (.inr (.inr ⟨k, a, rfl, h⟩))))

theorem Flight.inside_reading (f : Flight) (left : List Nat) (got : List Host.Cell) :
    ({ f with phase := .reading left got } : Flight).inside = true ↔
      f.len < 2 ^ 32 ∧ left ≠ [] ∧ ∀ a ∈ left, a < f.len := by
  unfold Flight.inside
  rw [Bool.and_eq_true, decide_eq_true_iff, Bool.and_eq_true, List.all_eq_true]
  simp only [decide_eq_true_eq, Bool.not_eq_true', List.isEmpty_eq_false_iff]
  rfl

theorem Flight.inside_writing (f : Flight) (left : List Host.Cell) :
    ({ f with phase := .writing left } : Flight).inside = true ↔
      f.len < 2 ^ 32 ∧ left ≠ [] ∧ ∀ c ∈ left, c.1 < f.len := by
  unfold Flight.inside
  rw [Bool.and_eq_true, decide_eq_true_iff, Bool.and_eq_true, List.all_eq_true]
  simp only [decide_eq_true_eq, Bool.not_eq_true', List.isEmpty_eq_false_iff]
  rfl

/-- An operation inside its buffer that is in front goes on with an access of its own. -/
theorem advance_of_inside {s : State} {f : Flight} {fs : List Flight} (h : s.inFlight = f :: fs)
    (hf : f.inside = true) :
    ∃ a, advance s = access f.inst a s ∧
      ((∃ as got, f.phase = .reading (a :: as) got) ∨ ∃ b cs, f.phase = .writing ((a, b) :: cs)) := by
  obtain ⟨k, i, len, ph⟩ := f
  unfold advance
  rw [h]
  cases ph with
  | reading left got =>
    cases left with
    | nil => exact absurd rfl ((Flight.inside_reading ⟨k, i, len, .reading [] got⟩ [] got).1 hf).2.1
    | cons a as => exact ⟨a, rfl, .inl ⟨as, got, rfl⟩⟩
  | writing left =>
    cases left with
    | nil => exact absurd rfl ((Flight.inside_writing ⟨k, i, len, .writing []⟩ []).1 hf).2.1
    | cons c cs => exact ⟨c.1, rfl, .inr ⟨c.2, cs, rfl⟩⟩

/-- One step more of a run, for any machine. -/
theorem run_succ_of_step (M : Host.Core) (k : Nat) {s t : M.State} (h : M.step s = .next t) :
    M.run (k + 1) s = M.run k t := by
  rw [Host.Core.run, h]

/-- One step more of a run of this machine. -/
theorem core_run_succ (k : Nat) {s t : State} (h : step s = .next t) :
    Sys2Proof.core.run (k + 1) s = Sys2Proof.core.run k t :=
  run_succ_of_step Sys2Proof.core k h

end Sys2Proof.Machine
end

