-- ==== Sys2Proof/Laws/Claims.lean ====
section
/-! SUPPORT. The model's operations against the formulas of the claims (Safety.lean): the flags,
suppression, the bits of the gathered number and of the bytes a WRITE leaves, and what an
instruction does to the bytes of its access plan. -/

namespace Sys2Proof.Machine

open Sys2Proof.Claims

/-- The model's flags of a READ or WRITE are those of 60_exceptions R112. -/
theorem fieldStatus_eq (o w len : Nat) : fieldStatus o w len = fieldFlags o w len := by
  simp only [fieldStatus, fieldFlags, ceilBytes, Status.mk.injEq, decide_eq_decide, and_true,
    Config.fieldMax, gt_iff_lt]
  simp only [clampWidth, Claims.width, Config.fieldMax]
  omega

theorem statusOf_eq (i : Instr) (len : Nat) : statusOf i len = flags i len := by
  cases i <;> first | exact fieldStatus_eq _ _ _ | rfl

/-- Suppression of a READ or WRITE is the failing of `performed` (60_exceptions R113). -/
theorem suppressed_fieldStatus_iff (s : State) (o w : Nat) :
    suppressed s.build.strict (fieldStatus o w s.len) = true ↔ ¬ performed s o w := by
  rw [fieldStatus_eq]
  unfold suppressed performed fieldFlags
  cases s.build.strict <;> simp
  omega

theorem not_suppressed_of_performed {s : State} {o w : Nat} (h : performed s o w) :
    suppressed s.build.strict (fieldStatus o w s.len) = false := by
  by_contra c
  exact (suppressed_fieldStatus_iff s o w).1 (by simpa using c) h

/-- Suppression of any instruction, in its flags (60_exceptions R113). -/
theorem suppressed_statusOf_iff (i : Instr) (s : State) :
    suppressed s.build.strict (statusOf i s.len) = true ↔
      ((flags i s.len).wz = true ∨
        (s.build.strict = true ∧ ((flags i s.len).oob = true ∨ (flags i s.len).wtl = true))) := by
  have ill : (flags i s.len).ill = false := by cases i <;> rfl
  rw [statusOf_eq]
  unfold suppressed
  cases s.build.strict <;> simp [ill]
  tauto

/-- One bit of the number gathered from a span of the buffer (40_datapath R66). -/
theorem getLsbD_spanNumber_spanBytes (e : Endian) (m : Memory) (o w len : Nat) {j : Nat}
    (hj : j < 64) :
    (spanNumber e (spanBytes m o w len)).getLsbD j =
      (decide (j / 8 < spanLength o w len) && match e with
        | .little => (m.read (byteBegin o len + j / 8)).getLsbD (j % 8)
        | .big => (m.read (byteBegin o len + (spanLength o w len - 1 - j / 8))).getLsbD (j % 8)) := by
  rw [getLsbD_spanNumber _ _ hj, spanBytes_eq_readFrom]
  by_cases h : j / 8 < spanLength o w len
  · cases e
    · simp only [Memory.getD_readFrom _ h, h, decide_true, Bool.true_and]
    · simp only [Memory.length_readFrom, h, if_true, decide_true, Bool.true_and]
      rw [Memory.getD_readFrom _ (by omega)]
  · cases e
    · simp only [h, decide_false, Bool.false_and]
      rw [List.getD_eq_getElem?_getD, List.getElem?_eq_none (by simpa using h)]
      simp
    · simp [h]

/-- The gathered number of a span is the sum of 40_datapath R66. -/
theorem toNat_spanNumber_spanBytes (e : Endian) (m : Memory) (o w len : Nat) :
    (spanNumber e (spanBytes m o w len)).toNat = spanSum e m o w len := by
  have h5 := spanLength_le o w len
  cases e with
  | little => exact toNat_spanNumber_little m (byteBegin o len) (n := spanLength o w len) (by omega)
  | big => exact toNat_spanNumber_big m (byteBegin o len) (n := spanLength o w len) (by omega)

/-- The bit of the merged number that bit `p` of byte `i` of a span of `n` bytes takes
(40_datapath R72). -/
def mergeBit (e : Endian) (n i p : Nat) : Nat :=
  match e with
  | .little => 8 * i + p
  | .big => 8 * (n - 1 - i) + p

/-- One bit of a byte a WRITE leaves in its span: the value's inside the window, the old byte's
elsewhere (40_datapath R70 to R72). -/
theorem State.getLsbD_read_writtenMem (s : State) (h : s.mem.wf = true) (e : Endian) (o w : Nat)
    (v : Word) {i p j : Nat} (hi : i < spanLength o w s.len) (hp : p < 8)
    (hj : j = mergeBit e (spanLength o w s.len) i p) :
    ((s.writtenMem e o w v).read (byteBegin o s.len + i)).getLsbD p =
      if shiftAmount e o w ≤ j ∧ j < shiftAmount e o w + clampWidth w then
        v.getLsbD (j - shiftAmount e o w)
      else (s.mem.read (byteBegin o s.len + i)).getLsbD p := by
  have h5 := spanLength_le o w s.len
  rw [State.read_writtenMem_inside s h e o w v hi, getLsbD_spanByte _ _ _ _ hp]
  have hj64 : j < 64 := by rw [hj]; cases e <;> simp only [mergeBit] <;> omega
  cases e
  · have hj : 8 * i + p = j := hj.symm
    simp only [hj]
    rw [getLsbD_mergeField, getLsbD_spanNumber_spanBytes _ _ _ _ _ hj64, show j / 8 = i by omega,
      show j % 8 = p by omega]
    simp [hi]
  · have hj : 8 * (spanLength o w s.len - 1 - i) + p = j := hj.symm
    simp only [hj]
    rw [getLsbD_mergeField, getLsbD_spanNumber_spanBytes _ _ _ _ _ hj64,
      show j / 8 = spanLength o w s.len - 1 - i by omega, show j % 8 = p by omega]
    simp only
    rw [show spanLength o w s.len - 1 - (spanLength o w s.len - 1 - i) = i by omega]
    simp [show spanLength o w s.len - 1 - i < spanLength o w s.len by omega]

/-- A READ whose span is empty answers 0 (40_datapath R66). -/
theorem readValue_nil (hostBig : Bool) (e : Endian) (o w : Nat) : readValue hostBig e o w [] = 0 := by
  rw [readValue_eq _ _ _ _ (by simp)]
  apply BitVec.eq_of_getLsbD_eq
  intro i hi
  have := shiftAmount_lt e o w
  rw [getLsbD_extractField]
  have : (spanNumber e []).getLsbD (shiftAmount e o w + i) = false := by
    rw [getLsbD_spanNumber _ _ (by omega)]
    cases e <;> simp
  simp [this]

theorem addressesOf_length_le (i : Instr) (len : Nat) : (addressesOf i len).length ≤ 5 := by
  have field : ∀ o w, (fieldAddresses o w len).length ≤ 5 := fun o w => by
    simpa [fieldAddresses] using spanLength_le o w len
  have bit : ∀ o, (setBitAddresses o len).length ≤ 5 := fun o => by
    unfold setBitAddresses
    split <;> simp
  cases i <;> first | exact field _ _ | exact bit _

theorem pendingWrites_length_le (hostBig : Bool) (f : Flight) (got : List Host.Cell) :
    (pendingWrites hostBig f got).length ≤ 5 := by
  have := addressesOf_length_le f.op f.len
  rw [pendingWrites, List.length_zip]
  omega

/-- An address outside a field's addresses is before its span or after it. -/
theorem outside_of_not_mem_fieldAddresses {o w len a : Nat} (h : a ∉ fieldAddresses o w len) :
    a < byteBegin o len ∨ byteEnd o w len ≤ a := by
  by_contra c
  have := byteBegin_add_spanLength o w len
  exact h (List.mem_map.2 ⟨a - byteBegin o len, List.mem_range.2 (by omega), by omega⟩)

@[simp] theorem State.afterRead_mem (s : State) (e : Endian) (o w : Nat) :
    (s.afterRead e o w).mem = s.mem := by
  unfold State.afterRead
  split <;> rfl

end Sys2Proof.Machine
end

