-- ==== Sys2Proof/Laws/Encoding.lean ====
section
/-! SUPPORT. The bits of a descriptor made of four words, and each field of it (30_encoding R43). -/

namespace Sys2Proof

/-- Bit `j` of a descriptor is bit `j mod 32` of word `j / 32`. -/
theorem Descriptor.getLsbD_ofWords (w0 w1 w2 w3 : Word) (j : Nat) :
    (Descriptor.ofWords w0 w1 w2 w3).getLsbD j =
      if j < 32 then w0.getLsbD j else if j < 64 then w1.getLsbD (j - 32)
      else if j < 96 then w2.getLsbD (j - 64) else w3.getLsbD (j - 96) := by
  change (w3 ++ (w2 ++ (w1 ++ w0))).getLsbD j = _
  simp only [BitVec.getLsbD_append]
  (repeat' split) <;> first | omega | rfl

theorem Descriptor.word0_ofWords (w0 w1 w2 w3 : Word) :
    (Descriptor.ofWords w0 w1 w2 w3).extractLsb' 0 32 = w0 := by
  apply BitVec.eq_of_getLsbD_eq
  intro j hj
  rw [BitVec.getLsbD_extractLsb', getLsbD_ofWords, if_pos (by omega)]
  simp [hj]

theorem Descriptor.word1_ofWords (w0 w1 w2 w3 : Word) :
    (Descriptor.ofWords w0 w1 w2 w3).extractLsb' 32 32 = w1 := by
  apply BitVec.eq_of_getLsbD_eq
  intro j hj
  rw [BitVec.getLsbD_extractLsb', getLsbD_ofWords, if_neg (by omega), if_pos (by omega),
    Nat.add_sub_cancel_left]
  simp [hj]

theorem Descriptor.word2_ofWords (w0 w1 w2 w3 : Word) :
    (Descriptor.ofWords w0 w1 w2 w3).extractLsb' 64 32 = w2 := by
  apply BitVec.eq_of_getLsbD_eq
  intro j hj
  rw [BitVec.getLsbD_extractLsb', getLsbD_ofWords, if_neg (by omega), if_neg (by omega),
    if_pos (by omega), Nat.add_sub_cancel_left]
  simp [hj]

theorem Descriptor.word3_ofWords (w0 w1 w2 w3 : Word) :
    (Descriptor.ofWords w0 w1 w2 w3).extractLsb' 96 32 = w3 := by
  apply BitVec.eq_of_getLsbD_eq
  intro j hj
  rw [BitVec.getLsbD_extractLsb', getLsbD_ofWords, if_neg (by omega), if_neg (by omega),
    if_neg (by omega), Nat.add_sub_cancel_left]
  simp [hj]

/-- `RSV` depends on `W0` alone. -/
theorem Descriptor.rsv_eq (c : Descriptor) :
    c.rsv = (c.extractLsb' 0 32 : Word).extractLsb' 3 29 := by
  apply BitVec.eq_of_getLsbD_eq
  intro j hj
  rw [Descriptor.rsv, BitVec.getLsbD_extractLsb', BitVec.getLsbD_extractLsb',
    BitVec.getLsbD_extractLsb']
  simp [show 3 + j < 32 by omega]

/-- `OP` depends on `W0` alone. -/
theorem Descriptor.op_eq (c : Descriptor) :
    c.op = (c.extractLsb' 0 32 : Word).extractLsb' 0 2 := by
  apply BitVec.eq_of_getLsbD_eq
  intro j hj
  rw [Descriptor.op, BitVec.getLsbD_extractLsb', BitVec.getLsbD_extractLsb',
    BitVec.getLsbD_extractLsb']
  simp [show j < 32 by omega]

/-- `M` depends on `W0` alone. -/
theorem Descriptor.mode_eq (c : Descriptor) :
    c.mode = (c.extractLsb' 0 32 : Word).getLsbD 2 := by
  rw [Descriptor.mode, BitVec.getLsbD_extractLsb']
  rfl

/-- An offset fits its word (10_state R17). -/
theorem offsetFits_iff (o : Nat) : offsetFits o = true ↔ o < 2 ^ 32 := decide_eq_true_iff

/-- A width fits its word (10_state R17). -/
theorem widthFits_iff (w : Nat) : widthFits w = true ↔ w < 2 ^ 32 := decide_eq_true_iff

/-- A descriptor is its four words. -/
theorem Descriptor.ofWords_words (c : Descriptor) :
    Descriptor.ofWords (c.extractLsb' 0 32) (c.extractLsb' 32 32) (c.extractLsb' 64 32)
      (c.extractLsb' 96 32) = c := by
  apply BitVec.eq_of_getLsbD_eq
  intro j hj
  rw [Descriptor.getLsbD_ofWords]
  simp only [BitVec.getLsbD_extractLsb']
  split
  · simp [*]
  · split
    · rw [show 32 + (j - 32) = j by omega]
      simp
      omega
    · split
      · rw [show 64 + (j - 64) = j by omega]
        simp
        omega
      · rw [show 96 + (j - 96) = j by omega]
        simp
        omega

end Sys2Proof
end

