-- ==== Sys2Proof/Laws/PerInstr.lean ====
section
/-! SUPPORT. Statements for all instructions, made per constructor: the encoding of an instruction
is a legal command word of 30_encoding R45. -/

namespace Sys2Proof.Laws.LegalWord

/-- The encoded descriptor has its own opcode in `W0`, no reserved bit, an `OP` other than 3, and
zeros in the words it does not use (30_encoding R45, R48, R49). -/
def Statement (i : Instr) : Prop :=
  (encode i).extractLsb' 0 32 = i.opcode ∧ (encode i).rsv = 0 ∧ (encode i).op ≠ 3 ∧
    match i with
    | .readL _ _ => (encode i).value = 0
    | .writeL _ _ v => (encode i).value = v
    | .setbit _ => (encode i).value = 0 ∧ (encode i).width = 0
    | .readB _ _ => (encode i).value = 0
    | .writeB _ _ v => (encode i).value = v
    | .setbitR _ => (encode i).value = 0 ∧ (encode i).width = 0

theorem readL (o w : Nat) : Statement (.readL o w) := by
  have h : (encode (.readL o w)).extractLsb' 0 32 = (0#32 : Word) := Descriptor.word0_ofWords _ _ _ _
  exact ⟨h, by rw [Descriptor.rsv_eq, h]; rfl, by rw [Descriptor.op_eq, h]; decide, Descriptor.word3_ofWords _ _ _ _⟩

theorem writeL (o w : Nat) (v : Word) : Statement (.writeL o w v) := by
  have h : (encode (.writeL o w v)).extractLsb' 0 32 = (1#32 : Word) := Descriptor.word0_ofWords _ _ _ _
  exact ⟨h, by rw [Descriptor.rsv_eq, h]; decide, by rw [Descriptor.op_eq, h]; decide, Descriptor.word3_ofWords _ _ _ _⟩

theorem setbit (o : Nat) : Statement (.setbit o) := by
  have h : (encode (.setbit o)).extractLsb' 0 32 = (2#32 : Word) := Descriptor.word0_ofWords _ _ _ _
  exact ⟨h, by rw [Descriptor.rsv_eq, h]; decide, by rw [Descriptor.op_eq, h]; decide, Descriptor.word3_ofWords _ _ _ _,
    congrArg BitVec.toNat (Descriptor.word2_ofWords _ _ _ _)⟩

theorem readB (o w : Nat) : Statement (.readB o w) := by
  have h : (encode (.readB o w)).extractLsb' 0 32 = (4#32 : Word) := Descriptor.word0_ofWords _ _ _ _
  exact ⟨h, by rw [Descriptor.rsv_eq, h]; decide, by rw [Descriptor.op_eq, h]; decide, Descriptor.word3_ofWords _ _ _ _⟩

theorem writeB (o w : Nat) (v : Word) : Statement (.writeB o w v) := by
  have h : (encode (.writeB o w v)).extractLsb' 0 32 = (5#32 : Word) := Descriptor.word0_ofWords _ _ _ _
  exact ⟨h, by rw [Descriptor.rsv_eq, h]; decide, by rw [Descriptor.op_eq, h]; decide, Descriptor.word3_ofWords _ _ _ _⟩

theorem setbitR (o : Nat) : Statement (.setbitR o) := by
  have h : (encode (.setbitR o)).extractLsb' 0 32 = (6#32 : Word) := Descriptor.word0_ofWords _ _ _ _
  exact ⟨h, by rw [Descriptor.rsv_eq, h]; decide, by rw [Descriptor.op_eq, h]; decide, Descriptor.word3_ofWords _ _ _ _,
    congrArg BitVec.toNat (Descriptor.word2_ofWords _ _ _ _)⟩

end Sys2Proof.Laws.LegalWord
end

