-- ==== Sys2Proof/Tests/Slice0.lean ====
section
/-! SUPPORT. Tests: ill-formed terms refused, words written out from the encoding, single steps with
the results of spec/95_test_vectors.md, and for every obligation with hypotheses a state and operands
that meet them. -/

namespace Sys2Proof.Tests

open Sys2Proof.Machine Sys2Proof.Claims

/-! ### States of the tests -/

/-- The machine after reset with a buffer presented. -/
def withBytes (bytes : List Byte) : State :=
  { State.reset with mem := Memory.writeFrom [] 0 bytes, len := bytes.length }

/-- The same built with `STRICT = 1`. -/
def strictly (s : State) : State := { s with build := { s.build with strict := true } }

/-- The same built with `HOST_BIG = 1`. -/
def onBigHost (s : State) : State := { s with build := { s.build with hostBig := true } }

/-- The buffer `B8` of 95_test_vectors section 4.1. -/
def b8 : State := withBytes [0x21, 0x43, 0x65, 0x87, 0xA9, 0xCB, 0xED, 0x0F]

/-- The one-byte buffer of 95_test_vectors section 4.3. -/
def ab : State := withBytes [0xAB]

/-- An empty buffer. -/
def empty : State := withBytes []

/-- The response word of an instruction, none where it does not answer. -/
def answerOf (i : Instr) (s : State) : Option (BitVec 36) :=
  (nextState (exec i s)).bind fun t => t.responses.getLast?.map Response.word

/-- The buffer after an instruction, none where it does not answer. -/
def bytesAfter (i : Instr) (s : State) : Option (List Byte) :=
  (nextState (exec i s)).map fun t => t.mem.readFrom 0 t.len

/-! ### Well-formedness: each check refuses an ill-formed term -/

theorem test_wf_readL_offset : Instr.wf (.readL 0x100000000 8) = false := by decide
theorem test_wf_readL_width : Instr.wf (.readL 0 0x100000000) = false := by decide
theorem test_wf_writeL_offset : Instr.wf (.writeL 0x100000000 8 0) = false := by decide
theorem test_wf_writeL_width : Instr.wf (.writeL 0 0x100000000 0) = false := by decide
theorem test_wf_setbit_offset : Instr.wf (.setbit 0x100000000) = false := by decide
theorem test_wf_readB_offset : Instr.wf (.readB 0x100000000 8) = false := by decide
theorem test_wf_readB_width : Instr.wf (.readB 0 0x100000000) = false := by decide
theorem test_wf_writeB_offset : Instr.wf (.writeB 0x100000000 8 0) = false := by decide
theorem test_wf_writeB_width : Instr.wf (.writeB 0 0x100000000 0) = false := by decide
theorem test_wf_setbitR_offset : Instr.wf (.setbitR 0x100000000) = false := by decide

/-! ### Decoding: words written out from 30_encoding R43 to R45, `W3 W2 W1 W0` -/

theorem test_decode_readL :
    decode 0x00000000_0000000F_0000000D_00000000 = .ok (.readL 13 15) := by decide
theorem test_decode_writeL :
    decode 0x40490FDB_00000020_00000005_00000001 = .ok (.writeL 5 32 0x40490FDB) := by decide
theorem test_decode_setbit :
    decode 0x00000000_00000000_0000000A_00000002 = .ok (.setbit 10) := by decide
theorem test_decode_readB :
    decode 0x00000000_00000004_0000001C_00000004 = .ok (.readB 28 4) := by decide
theorem test_decode_writeB :
    decode 0x00007FFF_0000000F_0000000D_00000005 = .ok (.writeB 13 15 0x7FFF) := by decide
theorem test_decode_setbitR :
    decode 0x00000000_00000000_0000000A_00000006 = .ok (.setbitR 10) := by decide

/-- Every bit of an operand reaches the instruction. -/
theorem test_decode_operands_whole :
    decode 0xFFFFFFFF_FFFFFFFF_FFFFFFFF_00000005 =
      .ok (.writeB 0xFFFFFFFF 0xFFFFFFFF 0xFFFFFFFF) := by decide

/-- `W2` and `W3` of a SETBIT are ignored (30_encoding R47; 95_test_vectors section 6). -/
theorem test_decode_setbit_ignores_words :
    decode 0xFFFFFFFF_00000063_0000000A_00000002 = .ok (.setbit 10) := by decide

/-- The reserved words of 95_test_vectors section 7.2. -/
theorem test_decode_reserved :
    decode 0x00000000_00000008_00000000_00000003 = .error .reservedOp ∧
    decode 0x00000000_00000008_00000000_00000007 = .error .reservedOp ∧
    decode 0x00000000_00000008_00000000_00000008 = .error .reservedBits ∧
    decode 0x000000FF_00000008_00000000_80000001 = .error .reservedBits := by decide

/-- The encoder writes the words of program P1 (95_test_vectors section 9). -/
theorem test_encode :
    encode (.writeB 13 15 0x7FFF) = 0x00007FFF_0000000F_0000000D_00000005 ∧
    encode (.setbitR 10) = 0x00000000_00000000_0000000A_00000006 := by decide

/-- The opcode table gives READ.L 96 bits and SETBIT 64; the words above them are 0. -/
theorem test_decode_table_words :
    decodeTableWord 96 0x0000000F_0000000D_00000000 = some (.readL 13 15) ∧
    decodeTableWord 64 0x0000000A_00000006 = some (.setbitR 10) ∧
    decodeTableWord 32 3 = none := by decide

/-! ### Single steps, results from 95_test_vectors -/

/-- Section 2, S1. -/
theorem test_readL_scenario1 :
    answerOf (.readL 12 12) (withBytes [0x21, 0x43, 0x65, 0x87, 0xA9, 0xCB]) = some 0x000000654 := by
  decide

/-- Section 7.1: a width above 32 and a field past the end at once. -/
theorem test_readL_flags : answerOf (.readL 60 40) b8 = some 0x300000000 := by decide

/-- Section 4.1: five bytes, shift 7. -/
theorem test_readB_widest : answerOf (.readB 1 32) b8 = some 0x04286CB0F := by decide

/-- Section 4.3: a clamped tail does not zero-fill. -/
theorem test_readB_clamped_tail :
    answerOf (.readB 12 32) (withBytes [0xAB, 0xCD, 0xEF]) = some 0x100000CDE := by decide

/-- Section 2, S3, from an all-ones start. -/
theorem test_writeL_scenario3 :
    bytesAfter (.writeL 5 32 0x40490FDB) (withBytes [0xFF, 0xFF, 0xFF, 0xFF, 0xFF]) =
      some [0x7F, 0xFB, 0x21, 0x09, 0xE8] := by decide

/-- Section 5.3: a clamped tail keeps the low bits of the value. -/
theorem test_writeL_clamped_tail :
    bytesAfter (.writeL 12 32 0x12345678) (withBytes [0xAB, 0xCD, 0xEF]) =
      some [0xAB, 0x8D, 0x67] := by decide

/-- Section 5.1: neighbours kept at both ends. -/
theorem test_writeB_neighbours :
    bytesAfter (.writeB 7 32 0xFFFFFFFF) (withBytes [0xAA, 0xAA, 0xAA, 0xAA, 0xAA, 0xAA]) =
      some [0xAB, 0xFF, 0xFF, 0xFF, 0xFE, 0xAA] := by decide

/-- Section 5.3: a clamped tail changes bits before the field; the same on a big-endian host. -/
theorem test_writeB_clamped_tail :
    bytesAfter (.writeB 4 16 0x5A5) (withBytes [0xAB, 0xCD]) = some [0x5A, 0x5D] ∧
    bytesAfter (.writeB 4 16 0x5A5) (onBigHost (withBytes [0xAB, 0xCD])) = some [0x5A, 0x5D] := by
  decide

/-- Section 6. -/
theorem test_setbit_byte1 : bytesAfter (.setbit 10) (withBytes [0, 0]) = some [0x00, 0x04] := by decide

/-- Sections 6 and 7.1: a bit outside the buffer. -/
theorem test_setbit_outside :
    bytesAfter (.setbit 16) (withBytes [0, 0]) = some [0, 0] ∧
    answerOf (.setbit 64) b8 = some 0x100000000 := by decide

/-- Section 6. -/
theorem test_setbitR_keeps_others :
    bytesAfter (.setbitR 2) (withBytes [0x04, 0x00]) = some [0x24, 0x00] := by decide

/-- Section 6: the last bit of the buffer. -/
theorem test_setbitR_last : bytesAfter (.setbitR 15) (withBytes [0, 0]) = some [0x00, 0x01] := by decide

/-- Section 4.2: width 0 is suppressed, `OOB` only beyond the last bit. -/
theorem test_width_zero :
    answerOf (.readL 64 0) b8 = some 0x400000000 ∧ answerOf (.readL 65 0) b8 = some 0x500000000 ∧
    bytesAfter (.writeL 3 0 0xFF) (withBytes [0x11, 0x22]) = some [0x11, 0x22] := by decide

/-- Section 7.3: the strict variant. -/
theorem test_strict :
    answerOf (.readL 4 8) (strictly ab) = some 0x100000000 ∧
    bytesAfter (.writeL 4 8 0xFF) (strictly ab) = some [0xAB] ∧
    answerOf (.readL 0 8) (strictly b8) = some 0x000000021 := by decide

/-- Section 2, S5: the scratch register on a little-endian and on a big-endian host. -/
theorem test_scratch_of_hosts :
    (nextState (exec (.readB 4 8) (withBytes [0x21, 0x43]))).map State.scr =
      some #v[0x43, 0x21, 0, 0, 0, 0, 0, 0] ∧
    (nextState (exec (.readB 4 8) (onBigHost (withBytes [0x21, 0x43])))).map State.scr =
      some #v[0, 0, 0, 0, 0, 0, 0x21, 0x43] := by decide

/-- Section 7.2: a reserved word is answered and nothing is written. -/
theorem test_step_reserved :
    (nextState (step { withBytes [0x11, 0x22] with
      queue := [.command 0x000000FF_00000008_00000000_80000001 2] })).map
        (fun t => (t.mem.readFrom 0 2, t.responses.map Response.word)) =
      some ([0x11, 0x22], [0x800000000]) := by decide

/-- The word of a table row runs as the first instruction after reset. -/
theorem test_placed_word_runs :
    step (State.reset.withFetchWord 64 0x0000000A_00000002) = exec (.setbit 10) State.reset := rfl

/-! ### The hypotheses of the obligations are met -/

theorem test_meets_DecodeEncodeRoundTrip :
    Instr.wf (.readL 0xFFFFFFFF 0xFFFFFFFF) = true ∧ Instr.wf (.writeL 0xFFFFFFFF 0 1) = true ∧
    Instr.wf (.setbit 0xFFFFFFFF) = true ∧ Instr.wf (.readB 0 0xFFFFFFFF) = true ∧
    Instr.wf (.writeB 0 0xFFFFFFFF 0) = true ∧ Instr.wf (.setbitR 0) = true := by decide

theorem test_meets_EncodeDecodeKeepsUsedBits :
    decode 0x12345678_00000000_FFFFFFFF_00000001 = .ok (.writeL 0xFFFFFFFF 0 0x12345678) ∧
    decode 0xFFFFFFFF_FFFFFFFF_00000001_00000006 = .ok (.setbitR 1) := by decide

/-- Every clause of the table: the six rows, and the reserved values around them. -/
theorem test_meets_DecoderReadsTheTable :
    ∀ w0 : Fin 9, ∃ c : Descriptor, (c.extractLsb' 0 32).toNat = w0.val := by
  intro w0
  exact ⟨BitVec.ofNat 128 w0.val, by fin_cases w0 <;> decide⟩

theorem test_meets_IgnoredWordsDoNotMatter :
    ((0xFFFFFFFF_0000000D_0000000D_00000004 : Descriptor).extractLsb' 0 32).toNat = 4 ∧
    (0xFFFFFFFF_0000000D_0000000D_00000004 : Descriptor).extractLsb' 0 96 =
      (0x00000000_0000000D_0000000D_00000004 : Descriptor).extractLsb' 0 96 ∧
    ((0xFFFFFFFF_00000063_0000000A_00000002 : Descriptor).extractLsb' 0 32).toNat = 2 ∧
    (0xFFFFFFFF_00000063_0000000A_00000002 : Descriptor).extractLsb' 0 64 =
      (0x00000000_00000000_0000000A_00000002 : Descriptor).extractLsb' 0 64 := by decide

theorem test_meets_StepRunsDecodedCommand :
    ({ b8 with queue := [.command (encode (.readL 0 12)) 8] } : State).queue =
      .command (encode (.readL 0 12)) 8 :: [] ∧
    decode (encode (.readL 0 12)) = .ok (.readL 0 12) := by decide

theorem test_meets_PlacedWordRunsNext :
    decodeTableWord 96 0x0000000F_0000000D_00000000 = some (.readL 13 15) ∧ b8.len < 2 ^ 32 := by
  decide

/-- Both ways of being reserved. -/
theorem test_meets_ReservedCommandAnswered :
    (0x00000007 : Descriptor).extractLsb' 0 2 = 3#2 ∧
    (0x80000001 : Descriptor).extractLsb' 3 29 ≠ 0#29 := by decide

/-- Performed and suppressed, at the smallest and largest widths, in both variants; the hypotheses of
ReadLittleResult, ReadBigResult, WriteLittleResult, WriteBigResult and ScratchHoldsTheSpan. -/
theorem test_meets_performed :
    performed ab 4 1 ∧ performed ab 4 33 ∧ performed (strictly b8) 32 32 ∧
    ¬ performed ab 4 0 ∧ ¬ performed (strictly b8) 33 32 ∧ ¬ performed (strictly b8) 0 33 ∧
    b8.mem.wf = true ∧ 0 < count 7 32 b8.len := by decide

/-- A field ending with the buffer; the hypotheses of ReadInRangeLayout, WritePreservesNeighbours and
WriteReadRoundTrip. -/
theorem test_meets_inRange :
    b8.mem.wf = true ∧ performed b8 32 32 ∧ 32 + width 32 ≤ 8 * b8.len ∧
    performed b8 63 1 ∧ 63 + width 1 ≤ 8 * b8.len := by decide

/-- WritePreservesNeighbours and WriteReadLittleAnyTail with a clamped tail and little data. -/
theorem test_meets_WriteReadLittleAnyTail :
    ab.mem.wf = true ∧ performed ab 4 8 ∧ ¬ 4 + width 8 ≤ 8 * ab.len ∧ performed ab 8 1 := by decide

/-- A buffer and its extension with a zero byte. -/
theorem test_meets_ReadLittleClampedTail :
    (8 : Nat) ≠ 0 ∧ ab.build.strict = false ∧ 4 / 8 < ab.len ∧ 8 * ab.len < 4 + width 8 ∧
    (withBytes [0xAB, 0]).build.strict = false ∧ 4 + width 8 ≤ 8 * (withBytes [0xAB, 0]).len ∧
    (∀ a < ab.len, (withBytes [0xAB, 0]).mem.read a = ab.mem.read a) ∧
    ∀ a, ab.len ≤ a → a < (withBytes [0xAB, 0]).len → (withBytes [0xAB, 0]).mem.read a = 0 := by
  refine ⟨by decide, rfl, by decide, by decide, rfl, by decide, by decide, fun a h1 h2 => ?_⟩
  have h1 : 1 ≤ a := h1
  have h2 : a < 2 := h2
  obtain rfl : a = 1 := by omega
  decide

/-- One bit over the end and a whole byte missing; the hypotheses of ReadBigClampedTail,
WriteReadBigClampedTail and WriteBigClampedTail. -/
theorem test_meets_bigClampedTail :
    ab.mem.wf = true ∧ ab.build.strict = false ∧ (4 : Nat) ≠ 0 ∧ 5 / 8 < ab.len ∧
    8 * ab.len < 5 + width 4 ∧ 0 / 8 < ab.len ∧ 8 * ab.len < 0 + width 16 := by decide

/-- Starting exactly at the end, and an empty buffer; the hypotheses of ReadBeyondBuffer,
WriteBeyondBuffer and SetBitOutsideIsNoOp. -/
theorem test_meets_beyond : b8.len ≤ 64 / 8 ∧ empty.len ≤ 0 / 8 := by decide

theorem test_meets_ReadEndianSymmetry :
    performed (withBytes [0x32, 0x16, 0x54]) 0 12 ∧
    0 + width 12 ≤ 8 * (withBytes [0x32, 0x16, 0x54]).len ∧
    (withBytes [0x54, 0x16, 0x32]).len = (withBytes [0x32, 0x16, 0x54]).len ∧
    (withBytes [0x54, 0x16, 0x32]).build.strict = (withBytes [0x32, 0x16, 0x54]).build.strict ∧
    ∀ a < (withBytes [0x32, 0x16, 0x54]).len, (withBytes [0x54, 0x16, 0x32]).mem.read a =
      (withBytes [0x32, 0x16, 0x54]).mem.read ((withBytes [0x32, 0x16, 0x54]).len - 1 - a) := by decide

/-- The hypothesis of WriteIdempotent, SetBitNeverClears and SetBitReadBack, and each clause of
SetBitResult and SetBitReversedResult: the last bit inside and the first outside. -/
theorem test_meets_setBit :
    b8.mem.wf = true ∧ 63 / 8 < b8.len ∧ b8.len ≤ 64 / 8 ∧ (0 : Nat) ≠ 64 / 8 := by decide

/-- Each clause of SuppressedOperations. -/
theorem test_meets_SuppressedOperations :
    (flags (.readL 0 0) ab.len).wz = true ∧
    ((strictly ab).build.strict = true ∧ (flags (.setbit 8) (strictly ab).len).oob = true) ∧
    ((strictly b8).build.strict = true ∧ (flags (.readB 0 33) (strictly b8).len).wtl = true) ∧
    ¬ ((flags (.writeL 4 8 1) ab.len).wz = true ∨
      (ab.build.strict = true ∧ ((flags (.writeL 4 8 1) ab.len).oob = true ∨
        (flags (.writeL 4 8 1) ab.len).wtl = true))) := by decide

/-- Each clause of StrictVariant. -/
theorem test_meets_StrictVariant :
    (strictly b8).build.strict = true ∧ (flags (.readL 33 32) (strictly b8).len).oob = true ∧
    (flags (.readL 32 32) (strictly b8).len).oob = false ∧
    (flags (.readL 32 32) (strictly b8).len).wtl = false ∧
    (flags (.readL 32 32) (strictly b8).len).wz = false := by decide

theorem test_meets_WideWidthIsThirtyTwo : b8.build.strict = false ∧ 32 < 33 := by decide

theorem test_meets_ShiftAmountLaws : 3 ≤ 3 := by decide

theorem test_meets_SpanOfEveryField : 32 + width 40 ≤ 8 * b8.len := by decide

/-- The same buffer with another byte past its end, and with the same bytes. -/
theorem test_meets_AccessesStayInsideBuffer :
    (∀ a < ab.len, Memory.read [(0, 0xAB), (1, 0x77)] a = ab.mem.read a) ∧ ab.mem.wf = true ∧
    Memory.wf [(0, 0xAB), (1, 0x77)] = true := by decide

/-- Two states that agree on the span only. -/
theorem test_meets_ResultDependsOnOperandsAndSpan :
    (withBytes [0xAB, 0x22]).len = (withBytes [0xAB, 0x11]).len ∧
    (∀ a ∈ accessPlan false (.writeB 0 8 1) 2,
      (withBytes [0xAB, 0x22]).mem.read a = (withBytes [0xAB, 0x11]).mem.read a) ∧
    accessPlan false (.writeB 0 8 1) 2 = [0] ∧ (withBytes [0xAB, 0x22]).mem.wf = true ∧
    (withBytes [0xAB, 0x11]).mem.wf = true := by decide

/-- An operation in progress between its reads and its writes. -/
def midWrite : State :=
  { ab with
    inFlight := [{ inst := 7, op := .writeL 4 4 0xF, len := 1, phase := .writing [(0, 0xFB)] }]
    queue := [.access 7 0] }

/-- A READ.B in progress with its byte still to be read, and no act of the host left. -/
def midRead : State :=
  { ab with
    inFlight := [{ inst := 5, op := .readB 0 8, len := 1, phase := .reading [0] [] }] }

/-- With no act of the host left a SETBIT given to an instance reads its byte, writes it and answers,
and then the machine is idle (70_reset R139). -/
theorem test_runs_on_to_the_end :
    ((nextState (Sys2Proof.core.run 3 { withBytes [0x04] with
      queue := [.issue 0 (encode (.setbitR 2)) 1] })).map fun t =>
        (t.mem.readFrom 0 1, t.inFlight, t.answers.map (·.inst))) =
      some ([0x24], [], [0]) ∧
    accessesLeft { inst := 0, op := .setbitR 2, len := 1, phase := .reading [0] [] } = 6 := by decide

/-- The first clause of InstanceFinishes, with two operations in progress. -/
theorem test_meets_InstanceFinishes :
    ({ midRead with inFlight := midRead.inFlight ++ midWrite.inFlight } : State).Inv ∧
    ({ midRead with inFlight := midRead.inFlight ++ midWrite.inFlight } : State).queue = [] := by decide

/-- A state in the middle of an operation meets the invariant, and steps on. -/
theorem test_meets_StepKeepsInvariant :
    midWrite.Inv ∧ ∃ t, step midWrite = .next t ∧ t.mem.read 0 = 0xFB ∧ t.inFlight = [] := by
  exact ⟨by decide, _, rfl, by decide, rfl⟩

/-- Both clauses of StepStopsOnlyForBusyInstance. -/
theorem test_meets_StepStopsOnlyForBusyInstance :
    midWrite.Inv ∧ midWrite.hostBreaksTurn = false ∧
    ({ midWrite with queue := [.issue 7 (encode (.setbit 0)) 1] } : State).Inv ∧
    ({ midWrite with queue := [.issue 7 (encode (.setbit 0)) 1] } : State).hostBreaksTurn = true := by
  decide

theorem test_meets_HostResetEffect :
    ({ midWrite with queue := [.reset] } : State).queue = .reset :: [] := rfl

/-- The idle block, an operation in front that reads, one that writes, and a store. -/
theorem test_meets_IdleAndHostStore :
    ab.queue = [] ∧ ab.inFlight = [] ∧ midRead.queue = [] ∧ midRead.inFlight.map Flight.phase =
      [.reading [0] []] ∧ ({ midWrite with queue := [] } : State).inFlight.map Flight.phase =
      [.writing [(0, 0xFB)]] ∧ ({ ab with queue := [.store 0 0x55] } : State).queue = .store 0 0x55 :: [] ∧
    ab.mem.wf = true ∧ (1 : Nat) ≠ (0 : BitVec 32).toNat := by decide

theorem test_meets_CommandsRunInOrder :
    ({ ab with queue := [.command (encode (.setbit 2)) 1, .command (encode (.readL 0 8)) 1] } :
        State).queue =
      .command (encode (.setbit 2)) 1 :: .command (encode (.readL 0 8)) 1 :: [] ∧
    decode (encode (.setbit 2)) = .ok (.setbit 2) ∧
    decode (encode (.readL 0 8)) = .ok (.readL 0 8) := by decide

/-- An instance with nothing to access, one with a byte, and the two ways of being reserved. -/
theorem test_meets_InstanceStartsWithItsPlan :
    ab.flightOf 3 = none ∧ decode (encode (.setbit 8)) = .ok (.setbit 8) ∧
    accessPlan ab.build.strict (.setbit 8) 1 = [] ∧
    decode (encode (.readL 4 8)) = .ok (.readL 4 8) ∧
    accessPlan ab.build.strict (.readL 4 8) 1 ≠ [] ∧
    (0x00000003 : Descriptor).extractLsb' 0 2 = 3#2 ∧
    (0x00000008 : Descriptor).extractLsb' 3 29 ≠ 0#29 := by decide

/-- An access in the reading and one in the writing phase answer. -/
theorem test_meets_InstanceAccessFrame :
    (∃ t, access 7 0 midWrite = .next t) ∧
    ∃ t, access 5 0 midRead = .next t := by
  exact ⟨⟨_, rfl⟩, ⟨_, rfl⟩⟩

/-- A WRITE of two bytes by an instance, its accesses in another order than the block's; stopped
after three of them for ResetMidOperationOldOrNew. -/
theorem test_meets_InstanceRefinesExec :
    (withBytes [0xFF, 0xFF]).mem.wf = true ∧ (withBytes [0xFF, 0xFF]).flightOf 3 = none ∧
    decode (encode (.writeL 4 8 0)) = .ok (.writeL 4 8 0) ∧
    ∃ t₀, issue 3 (encode (.writeL 4 8 0)) 2 (withBytes [0xFF, 0xFF]) = .next t₀ ∧
      (∃ t, accesses 3 [1, 0, 1] t₀ = .next t ∧ t.mem.readFrom 0 2 = [0xFF, 0xF0]) ∧
      ∃ t, accesses 3 [1, 0, 1, 0] t₀ = .next t ∧ t.flightOf 3 = none ∧
        t.mem.readFrom 0 2 = [0x0F, 0xF0] := by
  exact ⟨by decide, by decide, by decide, _, rfl, ⟨_, rfl, by decide⟩, _, rfl, by decide, by decide⟩

/-- The step clause of StartsAndReadsKeepMemory: a READ in progress beside a WRITE of another instance
that has just changed the byte. -/
theorem test_meets_StartsAndReadsKeepMemory_step :
    ({ midRead with mem := [(0, 0x55)], inFlight := midWrite.inFlight ++ midRead.inFlight } :
      State).flightOf 5 =
        some { inst := 5, op := read .big 0 8, len := 1, phase := .reading [0] [] } ∧
    ∃ t, access 5 0
        { midRead with mem := [(0, 0x55)], inFlight := midWrite.inFlight ++ midRead.inFlight } =
      .next t ∧ t.answers.map (·.response.rdata) = [0x55] := by
  exact ⟨by decide, _, rfl, by decide⟩

/-- The other clauses of StartsAndReadsKeepMemory, and the second of InstanceFinishes. -/
theorem test_meets_StartsAndReadsKeepMemory :
    b8.flightOf 0 = none ∧ decode (encode (.readB 4 8)) = .ok (read .big 4 8) ∧
    ∃ t₀, issue 0 (encode (.readB 4 8)) 8 b8 = .next t₀ ∧
      ∃ t, accesses 0 [0, 1] t₀ = .next t ∧ t.answers.map (·.response.rdata) = [0x14] := by
  exact ⟨by decide, by decide, _, rfl, _, rfl, by decide⟩

/-- The words of the first clause of ReadLittleResult, ReadBigResult, WriteLittleResult,
WriteBigResult, SetBitResult and SetBitReversedResult, with every other word set. -/
theorem test_meets_opcode_clauses :
    (0xFFFFFFFF_FFFFFFFF_FFFFFFFF_00000000 : Descriptor).extractLsb' 0 32 = 0x00000000#32 ∧
    (0xFFFFFFFF_FFFFFFFF_FFFFFFFF_00000004 : Descriptor).extractLsb' 0 32 = 0x00000004#32 ∧
    (0xFFFFFFFF_FFFFFFFF_FFFFFFFF_00000001 : Descriptor).extractLsb' 0 32 = 0x00000001#32 ∧
    (0xFFFFFFFF_FFFFFFFF_FFFFFFFF_00000005 : Descriptor).extractLsb' 0 32 = 0x00000005#32 ∧
    (0xFFFFFFFF_FFFFFFFF_FFFFFFFF_00000002 : Descriptor).extractLsb' 0 32 = 0x00000002#32 ∧
    (0xFFFFFFFF_FFFFFFFF_FFFFFFFF_00000006 : Descriptor).extractLsb' 0 32 = 0x00000006#32 := by
  decide

/-- A command presented with a reserved word, and one with an instruction. -/
theorem test_meets_EveryCommandCompletes :
    ({ ab with queue := [.command 3 1] } : State).queue = .command 3 1 :: [] ∧
    ({ ab with queue := [.command (encode (.setbitR 0)) 1] } : State).queue =
      .command (encode (.setbitR 0)) 1 :: [] := ⟨rfl, rfl⟩

/-- A byte beside the span inside the buffer, the first one past the buffer, and every byte for an
operation that accesses none. -/
theorem test_meets_InstructionFrames :
    0 ∉ accessPlan b8.build.strict (.writeL 8 8 1) b8.len ∧
    8 ∉ accessPlan b8.build.strict (.writeB 60 32 1) b8.len ∧
    accessPlan b8.build.strict (.setbit 64) b8.len = [] := by decide

/-- An instance at work takes no command. -/
theorem test_busy_instance : issue 7 (encode (.setbit 0)) 1 midWrite = .refused .instanceBusy := rfl

end Sys2Proof.Tests
end

/-! ### An instruction as a function of the bytes of its access plan

The next state of an instruction in terms of its operands and of the bytes at the addresses it
accesses: the response, and what it leaves at these addresses (10_state R10). -/

section

namespace Sys2Proof.Machine

/-- The bytes at the addresses an instruction accesses, in the order of its access plan. -/
def State.accessedBytes (s : State) (i : Instr) : List Byte :=
  (accessPlan s.build.strict i s.len).map s.mem.read

/-- The bytes an operation leaves at the addresses it accesses, from those it has read there: a READ
leaves them as they are, WRITE and SETBIT write all of them back (20_memory R30 to R32). -/
def bytesLeft (hostBig : Bool) (i : Instr) (bytes : List Byte) : List Byte :=
  match i with
  | .readL _ _ => bytes
  | .writeL _ _ _ => writebackOf hostBig i bytes
  | .setbit _ => writebackOf hostBig i bytes
  | .readB _ _ => bytes
  | .writeB _ _ _ => writebackOf hostBig i bytes
  | .setbitR _ => writebackOf hostBig i bytes

theorem accessPlan_of_suppressed {strict : Bool} {i : Instr} {len : Nat}
    (h : suppressed strict (statusOf i len) = true) : accessPlan strict i len = [] := if_pos h

theorem accessPlan_of_not_suppressed {strict : Bool} {i : Instr} {len : Nat}
    (h : suppressed strict (statusOf i len) = false) :
    accessPlan strict i len = addressesOf i len := by simp [accessPlan, h]

theorem State.accessedBytes_of_suppressed {s : State} {i : Instr}
    (h : suppressed s.build.strict (statusOf i s.len) = true) : s.accessedBytes i = [] := by
  rw [State.accessedBytes, accessPlan_of_suppressed h, List.map_nil]

theorem State.accessedBytes_of_not_suppressed {s : State} {i : Instr}
    (h : suppressed s.build.strict (statusOf i s.len) = false) :
    s.accessedBytes i = (addressesOf i s.len).map s.mem.read := by
  rw [State.accessedBytes, accessPlan_of_not_suppressed h]

/-- The accessed bytes fit the scratch register. -/
theorem State.length_accessedBytes_le (s : State) (i : Instr) : (s.accessedBytes i).length ≤ 8 := by
  cases h : suppressed s.build.strict (statusOf i s.len) with
  | true => simp [State.accessedBytes_of_suppressed h]
  | false =>
    have := addressesOf_length_le i s.len
    rw [State.accessedBytes_of_not_suppressed h, List.length_map]
    omega

theorem map_read_fieldAddresses (m : Memory) (o w len : Nat) :
    (fieldAddresses o w len).map m.read = spanBytes m o w len := by
  rw [fieldAddresses, List.map_map]
  rfl

/-! ### The byte order of the host -/

/-- The result does not depend on the byte order of the host (40_datapath R66). -/
theorem resultOf_hostBig (big big' : Bool) (i : Instr) {bytes : List Byte} (h : bytes.length ≤ 8) :
    resultOf big i bytes = resultOf big' i bytes := by
  have read (e : Endian) (o w : Nat) : readValue big e o w bytes = readValue big' e o w bytes := by
    rw [readValue_eq big e o w h, readValue_eq big' e o w h]
  cases i with
  | readL o w => exact read .little o w
  | readB o w => exact read .big o w
  | writeL | setbit | writeB | setbitR => rfl

/-- The bytes left do not depend on the byte order of the host (40_datapath R72). -/
theorem bytesLeft_hostBig (big big' : Bool) (i : Instr) {bytes : List Byte} (h : bytes.length ≤ 8) :
    bytesLeft big i bytes = bytesLeft big' i bytes := by
  have write (e : Endian) (o w : Nat) (v : Word) :
      writeBytes big e o w v bytes = writeBytes big' e o w v bytes := by
    rw [writeBytes_eq big e o w v h, writeBytes_eq big' e o w v h]
  cases i with
  | writeL o w v => exact write .little o w v
  | writeB o w v => exact write .big o w v
  | readL | setbit | readB | setbitR => rfl

/-! ### The response -/

/-- A READ answers the value of the bytes it accesses; one that is suppressed accesses none. `READ.L`
and `READ.B` have the same access plan, here written as the former's. -/
theorem State.afterRead_responses (s : State) (e : Endian) (o w : Nat) :
    (s.afterRead e o w).responses = s.responses ++ [{
      rdata := readValue s.build.hostBig e o w (s.accessedBytes (.readL o w))
      status := fieldStatus o w s.len }] := by
  cases h : suppressed s.build.strict (fieldStatus o w s.len) with
  | true =>
    rw [State.accessedBytes_of_suppressed (i := .readL o w) h, readValue_nil, State.afterRead,
      if_pos h, State.respond_responses]
  | false =>
    rw [State.accessedBytes_of_not_suppressed (i := .readL o w) h, addressesOf,
      map_read_fieldAddresses]
    simp [State.afterRead, h]

theorem State.afterWrite_responses (s : State) (e : Endian) (o w : Nat) (v : Word) :
    (s.afterWrite e o w v).responses =
      s.responses ++ [{ rdata := 0, status := fieldStatus o w s.len }] := by
  unfold State.afterWrite
  split <;> rfl

theorem State.afterSetBit_responses (s : State) (reversed : Bool) (o : Nat) :
    (s.afterSetBit reversed o).responses =
      s.responses ++ [{ rdata := 0, status := setBitStatus o s.len }] := by
  unfold State.afterSetBit
  split <;> rfl

/-- Every instruction answers once, with its flags and the result of the bytes it accesses. -/
theorem State.after_responses (s : State) (i : Instr) :
    (s.after i).responses = s.responses ++ [{
      rdata := resultOf s.build.hostBig i (s.accessedBytes i)
      status := statusOf i s.len }] := by
  cases i with
  | readL o w => exact s.afterRead_responses .little o w
  | writeL o w v => exact s.afterWrite_responses .little o w v
  | setbit o => exact s.afterSetBit_responses false o
  | readB o w => exact s.afterRead_responses .big o w
  | writeB o w v => exact s.afterWrite_responses .big o w v
  | setbitR o => exact s.afterSetBit_responses true o

/-! ### The accessed bytes afterwards -/

/-- Reading back what was written from an address on. -/
theorem Memory.readFrom_writeFrom {m : Memory} (h : m.wf = true) (a : Nat) (bytes : List Byte) :
    (m.writeFrom a bytes).readFrom a bytes.length = bytes := by
  refine List.ext_getElem (by simp) fun i hi hi' => ?_
  rw [Memory.getElem_readFrom, Memory.read_writeFrom_inside h hi']

/-- The span of a WRITE holds the bytes it stored. -/
theorem State.spanBytes_writtenMem (s : State) (h : s.mem.wf = true) (e : Endian) (o w : Nat)
    (v : Word) :
    spanBytes (s.writtenMem e o w v) o w s.len =
      writeBytes s.build.hostBig e o w v (spanBytes s.mem o w s.len) := by
  have read_back := Memory.readFrom_writeFrom h (byteBegin o s.len)
    (writeBytes s.build.hostBig e o w v (spanBytes s.mem o w s.len))
  rwa [length_writeBytes, length_spanBytes] at read_back

/-- What a WRITE leaves at the bytes it accesses, the same ones in both forms. -/
theorem State.map_read_afterWrite (s : State) (h : s.mem.wf = true) (e : Endian) (o w : Nat)
    (v : Word) :
    (accessPlan s.build.strict (.writeL o w v) s.len).map (s.afterWrite e o w v).mem.read =
      writeBytes s.build.hostBig e o w v (s.accessedBytes (.writeL o w v)) := by
  cases hs : suppressed s.build.strict (fieldStatus o w s.len) with
  | true =>
    rw [State.accessedBytes_of_suppressed (i := .writeL o w v) hs,
      accessPlan_of_suppressed (i := .writeL o w v) hs]
    rfl
  | false =>
    have written : (s.afterWrite e o w v).mem = s.writtenMem e o w v := by
      simp [State.afterWrite, hs]
    rw [State.accessedBytes_of_not_suppressed (i := .writeL o w v) hs,
      accessPlan_of_not_suppressed (i := .writeL o w v) hs, written, addressesOf,
      map_read_fieldAddresses, map_read_fieldAddresses, State.spanBytes_writtenMem s h]

/-- The access plan of a SETBIT is its byte where that is inside the buffer, whatever `STRICT` is:
where it is outside, there is nothing to suppress (43_setbit R103). -/
theorem accessPlan_setbit (strict : Bool) (o len : Nat) :
    accessPlan strict (.setbit o) len = setBitAddresses o len := by
  by_cases h : o / 8 < len
  · exact accessPlan_of_not_suppressed (suppressed_setBitStatus h strict)
  · simp [accessPlan, addressesOf, setBitAddresses, h]

/-- What a SETBIT leaves at the byte it accesses, the same one in both forms. -/
theorem State.map_read_afterSetBit (s : State) (h : s.mem.wf = true) (reversed : Bool) (o : Nat) :
    (accessPlan s.build.strict (.setbit o) s.len).map (s.afterSetBit reversed o).mem.read =
      (s.accessedBytes (.setbit o)).map (setBitByte reversed o) := by
  rw [State.accessedBytes, accessPlan_setbit]
  by_cases ho : o / 8 < s.len
  · simp [setBitAddresses, State.afterSetBit, ho, Memory.read_write_same h]
  · simp [setBitAddresses, ho]

/-- What every instruction leaves at the addresses it accesses. -/
theorem State.map_read_after (s : State) (i : Instr) (h : s.mem.wf = true) :
    (accessPlan s.build.strict i s.len).map (s.after i).mem.read =
      bytesLeft s.build.hostBig i (s.accessedBytes i) := by
  cases i with
  | readL o w => exact congrArg (List.map ·.read _) (s.afterRead_mem .little o w)
  | writeL o w v => exact s.map_read_afterWrite h .little o w v
  | setbit o => exact s.map_read_afterSetBit h false o
  | readB o w => exact congrArg (List.map ·.read _) (s.afterRead_mem .big o w)
  | writeB o w v => exact s.map_read_afterWrite h .big o w v
  | setbitR o => exact s.map_read_afterSetBit h true o

/-! ### Non-interference -/

/-- States with the same length and `STRICT` that agree at the addresses an instruction accesses give
it the same bytes. -/
theorem State.accessedBytes_congr {s s' : State} {i : Instr} (hlen : s'.len = s.len)
    (hstrict : s'.build.strict = s.build.strict)
    (hmem : ∀ a ∈ accessPlan s.build.strict i s.len, s'.mem.read a = s.mem.read a) :
    s'.accessedBytes i = s.accessedBytes i := by
  rw [State.accessedBytes, hlen, hstrict]
  exact List.map_congr_left hmem

/-- Settles O44: the response and the bytes left are functions of the accessed bytes, in which the two
states agree, and the byte order of the host, which alone can still differ, does not matter. -/
theorem resultDependsOnOperandsAndSpan : Obligations.ResultDependsOnOperandsAndSpan := by
  intro i s s' hlen hstrict hmem
  have hbytes := State.accessedBytes_congr hlen hstrict hmem
  have hfit := s.length_accessedBytes_le i
  refine ⟨s.after i, s'.after i, _, exec_eq i s, exec_eq i s', s.after_responses i, ?_, ?_⟩
  · rw [s'.after_responses i, hbytes, hlen, resultOf_hostBig _ s.build.hostBig i hfit]
  · intro hwf hwf'
    refine List.map_inj_left.1 ?_
    calc (accessPlan s.build.strict i s.len).map (s'.after i).mem.read
        = bytesLeft s'.build.hostBig i (s.accessedBytes i) := by
          rw [← hlen, ← hstrict, s'.map_read_after i hwf', hbytes]
      _ = bytesLeft s.build.hostBig i (s.accessedBytes i) := bytesLeft_hostBig _ _ i hfit
      _ = (accessPlan s.build.strict i s.len).map (s.after i).mem.read :=
          (s.map_read_after i hwf).symm

end Sys2Proof.Machine

end

/-! ### The bytes outside the access plan

Every instruction keeps the bytes it does not access, and it accesses none at or beyond the length of
the buffer (20_memory R34). -/

section

namespace Sys2Proof.Machine

theorem accessPlan_lt {strict : Bool} {i : Instr} {len a : Nat} (h : a ∈ accessPlan strict i len) :
    a < len := by
  cases hs : suppressed strict (statusOf i len) with
  | true => simp [accessPlan_of_suppressed hs] at h
  | false => exact addressesOf_lt (accessPlan_of_not_suppressed hs ▸ h)

/-- A WRITE of either byte order keeps the bytes outside its access plan, which is the same for both. -/
theorem State.read_afterWrite_of_not_mem (s : State) (e : Endian) (o w : Nat) (v : Word) {a : Nat}
    (h : a ∉ accessPlan s.build.strict (.writeL o w v) s.len) :
    (s.afterWrite e o w v).mem.read a = s.mem.read a := by
  cases hs : suppressed s.build.strict (fieldStatus o w s.len) with
  | true => simp [State.afterWrite, hs]
  | false =>
    rw [accessPlan_of_not_suppressed (i := .writeL o w v) hs] at h
    simpa [State.afterWrite, hs] using
      s.read_writtenMem_outside e o w v (outside_of_not_mem_fieldAddresses h)

/-- A SETBIT of either bit order keeps the bytes outside its access plan, which is the same for both. -/
theorem State.read_afterSetBit_of_not_mem (s : State) (reversed : Bool) (o : Nat) {a : Nat}
    (h : a ∉ accessPlan s.build.strict (.setbit o) s.len) :
    (s.afterSetBit reversed o).mem.read a = s.mem.read a := by
  rw [accessPlan_setbit] at h
  by_cases ho : o / 8 < s.len
  · have other : a ≠ o / 8 := by simpa [setBitAddresses, ho] using h
    simp [State.afterSetBit, ho, Memory.read_write_other _ _ other]
  · simp [State.afterSetBit, ho]

/-- Every instruction keeps the bytes outside its access plan. -/
theorem State.read_after_of_not_mem (s : State) (i : Instr) {a : Nat}
    (h : a ∉ accessPlan s.build.strict i s.len) : (s.after i).mem.read a = s.mem.read a := by
  cases i with
  | readL o w => exact congrArg (·.read a) (s.afterRead_mem .little o w)
  | writeL o w v => exact s.read_afterWrite_of_not_mem .little o w v h
  | setbit o => exact s.read_afterSetBit_of_not_mem false o h
  | readB o w => exact congrArg (·.read a) (s.afterRead_mem .big o w)
  | writeB o w v => exact s.read_afterWrite_of_not_mem .big o w v h
  | setbitR o => exact s.read_afterSetBit_of_not_mem true o h

/-- Settles O43: the access plan is inside the buffer. So the bytes beyond it are kept, and two
memories that agree inside the buffer agree on the plan, which fixes the response and the bytes left
there (O44); the other bytes of the buffer are kept from both. -/
theorem accessesStayInsideBuffer : Obligations.AccessesStayInsideBuffer := by
  intro i s
  refine ⟨fun a => accessPlan_lt, s.after i, exec_eq i s, fun a ha => ?_, fun m hm => ?_⟩
  · exact s.read_after_of_not_mem i fun hp => absurd (accessPlan_lt hp) (by omega)
  · obtain ⟨t, u, r, ht, hu, htr, hur, hplan⟩ := resultDependsOnOperandsAndSpan i s { s with mem := m }
      rfl rfl fun a ha => hm a (accessPlan_lt ha)
    cases (exec_eq i s).symm.trans ht
    cases (exec_eq i { s with mem := m }).symm.trans hu
    refine ⟨_, hu, hur.trans htr.symm, fun hwf hwf' a ha => ?_⟩
    by_cases hp : a ∈ accessPlan s.build.strict i s.len
    · exact hplan hwf hwf' a hp
    · calc (State.after { s with mem := m } i).mem.read a
          = m.read a := State.read_after_of_not_mem { s with mem := m } i hp
        _ = s.mem.read a := hm a ha
        _ = (s.after i).mem.read a := (s.read_after_of_not_mem i hp).symm

end Sys2Proof.Machine

end

/-! ### The shift amount

The amount of big data as the distance to the next byte boundary and as a negation (40_datapath R67). -/

section

namespace Sys2Proof.Machine

open Sys2Proof.Claims

/-- The shift amount of big data is the distance from the end of the field to the next multiple of 8. -/
theorem shiftAmount_big_eq_distance (o w : Nat) :
    shiftAmount .big o w = 8 * ((o + width w + 7) / 8) - (o + width w) := by
  change (8 - (o + width w) % 8) % 8 = _
  omega

/-- The shift amount of big data is the negation of the end of the field, in the integers mod 8. -/
theorem neg_emod_eight_eq_shiftAmount_big (o w : Nat) :
    -((o + width w : Nat) : Int) % 8 = (shiftAmount .big o w : Int) := by
  change _ = (((8 - (o + width w) % 8) % 8 : Nat) : Int)
  omega

/-- The low three bits of a negation in words of 3 bits or more: the modulus `2 ^ k` is a multiple of 8,
so wrapping does not reach them. -/
theorem toNat_neg_ofNat_mod_eight {k : Nat} (hk : 3 ≤ k) (x : Nat) :
    (-(BitVec.ofNat k x)).toNat % 8 = (8 - x % 8) % 8 := by
  have hdvd : 8 ∣ 2 ^ k := pow_dvd_pow 2 hk
  have hmod : x % 2 ^ k % 8 = x % 8 := Nat.mod_mod_of_dvd x hdvd
  have hlt : x % 2 ^ k < 2 ^ k := Nat.mod_lt x (Nat.two_pow_pos k)
  rw [BitVec.toNat_neg, BitVec.toNat_ofNat, Nat.mod_mod_of_dvd _ hdvd]
  omega

/-- Settles O40: the two amounts are the model's own formulas; the other forms are those of the big
one. -/
theorem shiftAmountLaws : Obligations.ShiftAmountLaws := fun o w =>
  ⟨rfl, rfl, shiftAmount_big_eq_distance o w, fun e => Nat.le_of_lt_succ (shiftAmount_lt e o w),
    neg_emod_eight_eq_shiftAmount_big o w, fun _ hk => toNat_neg_ofNat_mod_eight hk (o + width w)⟩

end Sys2Proof.Machine

end

/-! ### The width clamp

Every stage of the datapath takes the width through the clamp, so only the flags can tell a width above
32 from 32 (40_datapath R60). -/

section

namespace Sys2Proof.Machine

open Sys2Proof.Claims

@[simp] theorem spanLength_clampWidth (o w len : Nat) :
    spanLength o (clampWidth w) len = spanLength o w len := by
  simp [spanLength, byteEnd]

@[simp] theorem fieldAddresses_clampWidth (o w len : Nat) :
    fieldAddresses o (clampWidth w) len = fieldAddresses o w len := by
  simp [fieldAddresses]

@[simp] theorem spanBytes_clampWidth (m : Memory) (o w len : Nat) :
    spanBytes m o (clampWidth w) len = spanBytes m o w len := by
  simp [spanBytes]

@[simp] theorem shiftAmount_clampWidth (e : Endian) (o w : Nat) :
    shiftAmount e o (clampWidth w) = shiftAmount e o w := by
  cases e with
  | little => rfl
  | big => simp [shiftAmount]

@[simp] theorem fieldMask_clampWidth (w : Nat) : fieldMask (clampWidth w) = fieldMask w := by
  simp [fieldMask]

@[simp] theorem readValue_clampWidth (hostBig : Bool) (e : Endian) (o w : Nat) (bytes : List Byte) :
    readValue hostBig e o (clampWidth w) bytes = readValue hostBig e o w bytes := by
  simp [readValue, extractField]

@[simp] theorem writeScratch_clampWidth (hostBig : Bool) (e : Endian) (o w : Nat) (v : Word)
    (bytes : List Byte) :
    writeScratch hostBig e o (clampWidth w) v bytes = writeScratch hostBig e o w v bytes := by
  simp [writeScratch, mergeField, keepMask]

@[simp] theorem State.writtenMem_clampWidth (s : State) (e : Endian) (o w : Nat) (v : Word) :
    s.writtenMem e o (clampWidth w) v = s.writtenMem e o w v := by
  simp [State.writtenMem, writeBytes]

/-- A width above 32 has the flags of width 32, but reports `WTL` (60_exceptions R112). -/
theorem fieldStatus_of_wide {w : Nat} (h : 32 < w) (o len : Nat) :
    fieldStatus o w len = { fieldStatus o 32 len with wtl := true } := by
  have nonzero : w ≠ 0 := by omega
  simp [fieldStatus, clampWidth_of_ge h.le, clampWidth_of_le le_rfl, Config.fieldMax, h, nonzero]

/-- With `STRICT = 0` only width 0 suppresses a READ or WRITE (60_exceptions R113). -/
theorem performed_of_lenient {s : State} (hs : s.build.strict = false) {w : Nat} (hw : w ≠ 0) (o : Nat) :
    performed s o w := ⟨hw, fun h => absurd (hs.symm.trans h) Bool.false_ne_true⟩

theorem accessPlan_read_of_performed {s : State} {o w : Nat} (h : performed s o w) (e : Endian) :
    accessPlan s.build.strict (read e o w) s.len = fieldAddresses o w s.len := by
  cases e with
  | little => exact accessPlan_of_not_suppressed (i := .readL o w) (not_suppressed_of_performed h)
  | big => exact accessPlan_of_not_suppressed (i := .readB o w) (not_suppressed_of_performed h)

theorem accessPlan_write_of_performed {s : State} {o w : Nat} (h : performed s o w) (e : Endian)
    (v : Word) : accessPlan s.build.strict (write e o w v) s.len = fieldAddresses o w s.len := by
  cases e with
  | little => exact accessPlan_of_not_suppressed (i := .writeL o w v) (not_suppressed_of_performed h)
  | big => exact accessPlan_of_not_suppressed (i := .writeB o w v) (not_suppressed_of_performed h)

/-- A READ of either byte order leaves the state `afterRead`. -/
theorem exec_read (e : Endian) (o w : Nat) (s : State) :
    exec (read e o w) s = .next (s.afterRead e o w) := by
  cases e with
  | little => exact exec_eq (.readL o w) s
  | big => exact exec_eq (.readB o w) s

/-- A WRITE of either byte order leaves the state `afterWrite`. -/
theorem exec_write (e : Endian) (o w : Nat) (v : Word) (s : State) :
    exec (write e o w v) s = .next (s.afterWrite e o w v) := by
  cases e with
  | little => exact exec_eq (.writeL o w v) s
  | big => exact exec_eq (.writeB o w v) s

/-- A READ that is performed gathers its span and answers the value of it. -/
theorem exec_read_of_performed {s : State} {o w : Nat} (h : performed s o w) (e : Endian) :
    exec (read e o w) s =
      .next ((s.withScr (gatherScratch s.build.hostBig e (spanBytes s.mem o w s.len))).respond
        (readValue s.build.hostBig e o w (spanBytes s.mem o w s.len)) (fieldStatus o w s.len)) := by
  rw [exec_read, State.afterRead, not_suppressed_of_performed h, if_neg Bool.false_ne_true]

/-- A WRITE that is performed stores its span, keeps it in the scratch register, and answers 0. -/
theorem exec_write_of_performed {s : State} {o w : Nat} (h : performed s o w) (e : Endian) (v : Word) :
    exec (write e o w v) s =
      .next ((({ s with mem := s.writtenMem e o w v } : State).withScr
        (writeScratch s.build.hostBig e o w v (spanBytes s.mem o w s.len))).respond 0
          (fieldStatus o w s.len)) := by
  rw [exec_write, State.afterWrite, not_suppressed_of_performed h, if_neg Bool.false_ne_true]

/-- Settles O39: with `STRICT = 0` neither width is suppressed, and in what is performed the wide one
can be clamped to 32, which leaves its flags as the only difference. -/
theorem wideWidthIsThirtyTwo : Obligations.WideWidthIsThirtyTwo := by
  intro e o w v s hs hw
  have wide : performed s o w := performed_of_lenient hs (by omega) o
  have full : performed s o 32 := performed_of_lenient hs (by decide) o
  have clamp : clampWidth w = 32 := clampWidth_of_ge hw.le
  have plan : fieldAddresses o w s.len = fieldAddresses o 32 s.len := by
    rw [← fieldAddresses_clampWidth, clamp]
  refine ⟨?_, ?_, ⟨_, ⟨_, fieldStatus o 32 s.len⟩, exec_read_of_performed full e, rfl, ?_⟩,
    _, ⟨_, fieldStatus o 32 s.len⟩, exec_write_of_performed full e v, rfl, ?_⟩
  · rw [← hs, accessPlan_read_of_performed wide, accessPlan_read_of_performed full, plan]
  · rw [← hs, accessPlan_write_of_performed wide, accessPlan_write_of_performed full, plan]
  · rw [exec_read_of_performed wide, fieldStatus_of_wide hw, ← spanBytes_clampWidth s.mem o w,
      ← readValue_clampWidth _ e o w, clamp]
    rfl
  · rw [exec_write_of_performed wide, fieldStatus_of_wide hw, ← spanBytes_clampWidth s.mem o w,
      ← State.writtenMem_clampWidth s e o w, ← writeScratch_clampWidth _ e o w, clamp]
    rfl

end Sys2Proof.Machine

end

/-! ### READ

The encoding, the answer and the next state of both READs, each once for the two byte orders, and the
READ whose field lies wholly beyond the buffer (41_read section 1, R81, R82, R87). -/

section

namespace Sys2Proof.Machine

open Sys2Proof.Claims

/-- A descriptor with the `W0` of a READ is that READ, with `W1` and `W2` as its operands
(30_encoding R45, R46). -/
theorem decode_of_word0_eq_read_opcode (e : Endian) {c : Descriptor}
    (h : c.extractLsb' 0 32 = (read e 0 0).opcode) :
    decode c = .ok (read e c.offset c.width) := by
  rw [decode, Descriptor.rsv_eq, Descriptor.op_eq, Descriptor.mode_eq, h]
  cases e <;> rfl

/-- The shift amount is that of 40_datapath R67. -/
theorem shiftAmount_eq (e : Endian) (o w : Nat) : shiftAmount e o w = shift e o w := by
  cases e <;> rfl

/-- READ's value of a span of the buffer: its number, shifted and masked (41_read R81, R82). -/
theorem toNat_readValue_spanBytes (hostBig : Bool) (e : Endian) (m : Memory) (o w len : Nat) :
    (readValue hostBig e o w (spanBytes m o w len)).toNat =
      spanSum e m o w len / 2 ^ shift e o w % 2 ^ width w := by
  rw [readValue_eq _ _ _ _ (length_spanBytes_le m o w len), toNat_extractField,
    toNat_spanNumber_spanBytes, shiftAmount_eq]
  rfl

/-- A READ that is performed answers the number of its span, shifted and masked, and leaves everything
but the scratch register as it is. -/
theorem exec_read_answers_of_performed {s : State} {o w : Nat} (h : performed s o w) (e : Endian) :
    ∃ scr rdata,
      exec (read e o w) s = .next { s with
        scr := scr, responses := answered s rdata (fieldFlags o w s.len) } ∧
      rdata.toNat = spanSum e s.mem o w s.len / 2 ^ shift e o w % 2 ^ width w := by
  have run := exec_read_of_performed h e
  rw [fieldStatus_eq] at run
  exact ⟨_, _, run, toNat_readValue_spanBytes s.build.hostBig e s.mem o w s.len⟩

/-- A READ that is suppressed answers 0 and does nothing else (60_exceptions R113). -/
theorem exec_read_of_not_performed {s : State} {o w : Nat} (h : ¬ performed s o w) (e : Endian) :
    exec (read e o w) s = .next { s with responses := answered s 0 (fieldFlags o w s.len) } := by
  rw [exec_read, State.afterRead, if_pos ((suppressed_fieldStatus_iff s o w).2 h), fieldStatus_eq]
  rfl

/-- Settles O10: the encoding, the performed and the suppressed READ, for little data. -/
theorem readLittleResult : Obligations.ReadLittleResult :=
  ⟨fun _ => decode_of_word0_eq_read_opcode .little,
    fun _ _ _ h => exec_read_answers_of_performed h .little,
    fun _ _ _ h => exec_read_of_not_performed h .little⟩

/-- Settles O11: the encoding, the performed and the suppressed READ, for big data. -/
theorem readBigResult : Obligations.ReadBigResult :=
  ⟨fun _ => decode_of_word0_eq_read_opcode .big,
    fun _ _ _ h => exec_read_answers_of_performed h .big,
    fun _ _ _ h => exec_read_of_not_performed h .big⟩

/-! ### A READ wholly beyond the buffer -/

/-- Wholly beyond the buffer a field has no address to access (40_datapath R62). -/
theorem fieldAddresses_beyond {o len : Nat} (w : Nat) (h : len ≤ o / 8) :
    fieldAddresses o w len = [] := by
  rw [fieldAddresses, spanLength_beyond w h]
  rfl

/-- A READ wholly beyond the buffer accesses nothing, suppressed or not. -/
theorem accessPlan_read_beyond (strict : Bool) (e : Endian) {o len : Nat} (w : Nat)
    (h : len ≤ o / 8) : accessPlan strict (read e o w) len = [] := by
  have addresses : addressesOf (read e o w) len = [] := by
    cases e <;> exact fieldAddresses_beyond w h
  rw [accessPlan, addresses, ite_self]

/-- Wholly beyond the buffer a field of a width other than 0 is out of bounds (60_exceptions R112). -/
theorem fieldStatus_oob_beyond {o w len : Nat} (h : len ≤ o / 8) (hw : w ≠ 0) :
    (fieldStatus o w len).oob = true := by
  have pos := clampWidth_pos hw
  rw [fieldStatus_eq]
  refine decide_eq_true ?_
  change 8 * len < o + clampWidth w
  omega

/-- Settles O16: with nothing to access the READ answers the value of no bytes, which is 0. -/
theorem readBeyondBuffer : Obligations.ReadBeyondBuffer := by
  intro e o w s h
  have no_bytes : s.accessedBytes (.readL o w) = [] :=
    congrArg (List.map s.mem.read) (accessPlan_read_beyond s.build.strict .little w h)
  have answer := s.afterRead_responses e o w
  rw [no_bytes, readValue_nil] at answer
  exact ⟨accessPlan_read_beyond _ e w h, _, _, exec_read e o w s, answer, rfl,
    fieldStatus_oob_beyond h⟩

end Sys2Proof.Machine

end

/-! ### WRITE

The encoding, the answer and the next state of both WRITEs, each once for the two byte orders; the
value they take; and the WRITE whose field lies wholly beyond the buffer (42_write section 1, R91 to
R93, R98). -/

section

namespace Sys2Proof.Machine

open Sys2Proof.Claims

/-- A descriptor with the `W0` of a WRITE is that WRITE, with `W1`, `W2` and `W3` as its operands
(30_encoding R45, R46). -/
theorem decode_of_word0_eq_write_opcode (e : Endian) {c : Descriptor}
    (h : c.extractLsb' 0 32 = (write e 0 0 0).opcode) :
    decode c = .ok (write e c.offset c.width c.value) := by
  rw [decode, Descriptor.rsv_eq, Descriptor.op_eq, Descriptor.mode_eq, h]
  cases e <;> rfl

/-- A WRITE that is performed stores the merge over its span and answers 0; besides the span, the
scratch register and the response it leaves everything as it is. -/
theorem exec_write_merges_of_performed {s : State} {o w : Nat} (h : performed s o w) (e : Endian)
    (v : Word) :
    ∃ scr m,
      exec (write e o w v) s = .next { s with
        mem := m, scr := scr, responses := answered s 0 (fieldFlags o w s.len) } ∧
      (∀ a, a < first o s.len ∨ stop o w s.len ≤ a → m.read a = s.mem.read a) ∧
      (s.mem.wf = true → ∀ i < count o w s.len, ∀ p < 8,
        let j := mergeBit e (count o w s.len) i p
        (m.read (first o s.len + i)).getLsbD p =
          if shift e o w ≤ j ∧ j < shift e o w + width w then v.getLsbD (j - shift e o w)
          else (s.mem.read (first o s.len + i)).getLsbD p) := by
  have run := exec_write_of_performed h e v
  rw [fieldStatus_eq] at run
  refine ⟨_, _, run, fun a => s.read_writtenMem_outside e o w v, fun hwf i hi p hp => ?_⟩
  rw [← shiftAmount_eq]
  exact s.getLsbD_read_writtenMem hwf e o w v hi hp rfl

/-- A WRITE that is suppressed answers 0 and does nothing else (60_exceptions R113). -/
theorem exec_write_of_not_performed {s : State} {o w : Nat} (h : ¬ performed s o w) (e : Endian)
    (v : Word) :
    exec (write e o w v) s = .next { s with responses := answered s 0 (fieldFlags o w s.len) } := by
  rw [exec_write, State.afterWrite, if_pos ((suppressed_fieldStatus_iff s o w).2 h), fieldStatus_eq]
  rfl

/-- Settles O18: the encoding, the performed and the suppressed WRITE, for little data. -/
theorem writeLittleResult : Obligations.WriteLittleResult :=
  ⟨fun _ => decode_of_word0_eq_write_opcode .little,
    fun _ _ v _ h => exec_write_merges_of_performed h .little v,
    fun _ _ v _ h => exec_write_of_not_performed h .little v⟩

/-- Settles O19: the encoding, the performed and the suppressed WRITE, for big data. -/
theorem writeBigResult : Obligations.WriteBigResult :=
  ⟨fun _ => decode_of_word0_eq_write_opcode .big,
    fun _ _ v _ h => exec_write_merges_of_performed h .big v,
    fun _ _ v _ h => exec_write_of_not_performed h .big v⟩

/-! ### The value a WRITE takes -/

/-- Reducing a value modulo `2^w'` keeps its bits below `w'`. -/
theorem getLsbD_ofNat_mod_width (v : Word) {w k : Nat} (h : k < width w) :
    (BitVec.ofNat 32 (v.toNat % 2 ^ width w)).getLsbD k = v.getLsbD k := by
  have in_word : k < 32 := h.trans_le (clampWidth_le w)
  rw [BitVec.getLsbD_ofNat, Nat.testBit_mod_two_pow, decide_eq_true in_word, decide_eq_true h,
    Bool.true_and, Bool.true_and]
  rfl

/-- The merge takes only the bits of the value that the field's window has room for
(40_datapath R71). -/
theorem mergeField_mod_width (e : Endian) (o w : Nat) (v : Word) (S : ScratchWord) :
    mergeField e o w (BitVec.ofNat 32 (v.toNat % 2 ^ width w)) S = mergeField e o w v S := by
  apply BitVec.eq_of_getLsbD_eq
  intro j _
  rw [getLsbD_mergeField, getLsbD_mergeField]
  split
  · next window =>
    obtain ⟨above, below⟩ := window
    exact getLsbD_ofNat_mod_width v (Nat.sub_lt_left_of_lt_add above below)
  · rfl

/-- Settles O20: a WRITE uses its value in the merge alone, and the merge cuts it to `w'` bits. -/
theorem writeValueTruncation : Obligations.WriteValueTruncation := by
  intro e o w v s
  refine ⟨s.afterWrite e o w v, exec_write e o w v s, ?_⟩
  rw [exec_write]
  simp only [State.afterWrite, State.writtenMem, writeBytes, writeScratch, mergeField_mod_width]

/-! ### A WRITE wholly beyond the buffer -/

/-- A WRITE accesses the bytes that the READ of the same field accesses (20_memory R30, R31). -/
theorem accessPlan_write_eq_read (strict : Bool) (e : Endian) (o w : Nat) (v : Word) (len : Nat) :
    accessPlan strict (write e o w v) len = accessPlan strict (read e o w) len := by
  cases e <;> rfl

/-- Wholly beyond the buffer a WRITE has no byte to store (42_write R98). -/
theorem State.writtenMem_beyond (s : State) (e : Endian) {o : Nat} (w : Nat) (v : Word)
    (h : s.len ≤ o / 8) : s.writtenMem e o w v = s.mem := by
  have no_bytes : writeBytes s.build.hostBig e o w v (spanBytes s.mem o w s.len) = [] := by
    rw [← List.length_eq_zero_iff, length_writeBytes, length_spanBytes, spanLength_beyond w h]
  rw [State.writtenMem, no_bytes, Memory.writeFrom]

/-- A WRITE wholly beyond the buffer leaves the buffer unchanged, suppressed or not. -/
theorem State.afterWrite_mem_beyond (s : State) (e : Endian) {o : Nat} (w : Nat) (v : Word)
    (h : s.len ≤ o / 8) : (s.afterWrite e o w v).mem = s.mem := by
  unfold State.afterWrite
  split
  · rfl
  · exact s.writtenMem_beyond e w v h

/-- Settles O26: wholly beyond the buffer there is no byte to access, and no instruction changes a byte
at or beyond the length (O43). -/
theorem writeBeyondBuffer : Obligations.WriteBeyondBuffer := by
  refine ⟨fun e o w v s h => ⟨?_, _, _, exec_write e o w v s, s.afterWrite_mem_beyond e w v h,
    s.afterWrite_responses e o w v, fieldStatus_oob_beyond h⟩, fun e o w v s => ?_⟩
  · rw [accessPlan_write_eq_read, accessPlan_read_beyond _ e w h]
  · obtain ⟨_, t, run, kept, _⟩ := accessesStayInsideBuffer (write e o w v) s
    exact ⟨t, run, kept⟩

end Sys2Proof.Machine

end

/-! ### SETBIT

The encoding, the byte it sets, the answer and the next state of both SETBITs, each once for the two
bit numberings; the SETBIT whose byte is outside the buffer; and updates of one byte that race
(43_setbit section 1, R101 to R103, R107). -/

section

namespace Sys2Proof.Machine

open Sys2Proof.Claims

/-- A descriptor with the `W0` of a SETBIT is that SETBIT, with `W1` as its operand
(30_encoding R45, R46). -/
theorem decode_of_word0_eq_setBit_opcode (e : Endian) {c : Descriptor}
    (h : c.extractLsb' 0 32 = (setBit e 0).opcode) :
    decode c = .ok (setBit e c.offset) := by
  rw [decode, Descriptor.rsv_eq, Descriptor.op_eq, Descriptor.mode_eq, h]
  cases e <;> rfl

/-- A SETBIT of either numbering leaves the state `afterSetBit`. -/
theorem exec_setBit (e : Endian) (o : Nat) (s : State) :
    exec (setBit e o) s = .next (s.afterSetBit (decide (e = .big)) o) := by
  cases e with
  | little => exact exec_eq (.setbit o) s
  | big => exact exec_eq (.setbitR o) s

/-- The bit SETBIT sets is the physical bit of its numbering (20_memory R24, R25). -/
theorem setBitPosition_eq_physicalBit (e : Endian) (o : Nat) :
    setBitPosition (decide (e = .big)) o = physicalBit e o := by
  cases e <;> rfl

theorem physicalBit_lt (e : Endian) (b : Nat) : physicalBit e b < 8 := by
  cases e with
  | little => exact Nat.mod_lt b (by decide)
  | big => exact Nat.lt_succ_of_le (Nat.sub_le 7 (b % 8))

/-- Besides the memory and the response, a SETBIT leaves everything as it is. -/
theorem State.afterSetBit_eq (s : State) (reversed : Bool) (o : Nat) :
    s.afterSetBit reversed o = { s with
      mem := (s.afterSetBit reversed o).mem, responses := answered s 0 (bitFlags o s.len) } := by
  unfold State.afterSetBit
  split <;> rfl

/-- Outside the buffer a SETBIT leaves the memory as it is (43_setbit R103). -/
theorem State.afterSetBit_mem_outside {s : State} {o : Nat} (h : s.len ≤ o / 8) (reversed : Bool) :
    (s.afterSetBit reversed o).mem = s.mem := by
  rw [State.afterSetBit, if_neg (Nat.not_lt.2 h), State.respond_mem]

/-- Inside the buffer a SETBIT leaves its bit set in its byte (43_setbit R100). -/
theorem State.read_afterSetBit_inside {s : State} {o : Nat} (h : o / 8 < s.len)
    (hwf : s.mem.wf = true) (reversed : Bool) :
    (s.afterSetBit reversed o).mem.read (o / 8) =
      setBitByte reversed o (s.mem.read (o / 8)) := by
  rw [State.afterSetBit, if_pos h, State.respond_mem]
  exact Memory.read_write_same hwf _ _

/-- A SETBIT of either form accesses its byte where that is inside the buffer, and nothing where it is
outside (20_memory R32). -/
theorem accessPlan_setBit_eq_setBitAddresses (strict : Bool) (e : Endian) (o len : Nat) :
    accessPlan strict (setBit e o) len = setBitAddresses o len := by
  cases e <;> exact accessPlan_setbit strict o len

theorem not_mem_setBitAddresses {a o : Nat} (h : a ≠ o / 8) (len : Nat) :
    a ∉ setBitAddresses o len := by
  unfold setBitAddresses
  split <;> simp [h]

/-- A SETBIT keeps every byte but its own. -/
theorem State.read_afterSetBit_other (s : State) (reversed : Bool) {o a : Nat} (h : a ≠ o / 8) :
    (s.afterSetBit reversed o).mem.read a = s.mem.read a := by
  refine s.read_afterSetBit_of_not_mem reversed o ?_
  rw [accessPlan_setbit]
  exact not_mem_setBitAddresses h s.len

/-- The bit that SETBIT ors into a byte is set afterwards. -/
theorem getLsbD_or_one_shiftLeft (b : Byte) {p : Nat} (h : p < 8) :
    (b ||| (1#8 <<< p)).getLsbD p = true := by
  simp [h]

/-- What a SETBIT of either numbering does from every state. -/
theorem exec_setBit_sets_bit (e : Endian) (o : Nat) (s : State) : ∃ m,
    exec (setBit e o) s = .next { s with mem := m, responses := answered s 0 (bitFlags o s.len) } ∧
    (s.len ≤ o / 8 → m = s.mem) ∧
    (∀ a, a ≠ o / 8 → m.read a = s.mem.read a) ∧
    (o / 8 < s.len → s.mem.wf = true →
      m.read (o / 8) = s.mem.read (o / 8) ||| (1#8 <<< physicalBit e o) ∧
        streamBit e m o = true) := by
  refine ⟨_, (exec_setBit e o s).trans (congrArg Host.Outcome.next (s.afterSetBit_eq _ o)),
    fun h => State.afterSetBit_mem_outside h _, fun _ => s.read_afterSetBit_other _, fun h hwf => ?_⟩
  have byte := State.read_afterSetBit_inside h hwf (decide (e = .big))
  rw [setBitByte, setBitPosition_eq_physicalBit] at byte
  refine ⟨byte, ?_⟩
  rw [streamBit, byte]
  exact getLsbD_or_one_shiftLeft _ (physicalBit_lt e o)

/-- Settles O28: the encoding, and what SETBIT does, for little numbering. -/
theorem setBitResult : Obligations.SetBitResult :=
  ⟨fun _ => decode_of_word0_eq_setBit_opcode .little, exec_setBit_sets_bit .little⟩

/-- Settles O29: the encoding, and what SETBIT.R does, for big numbering. -/
theorem setBitReversedResult : Obligations.SetBitReversedResult :=
  ⟨fun _ => decode_of_word0_eq_setBit_opcode .big, exec_setBit_sets_bit .big⟩

/-! ### A SETBIT outside the buffer -/

theorem setBitAddresses_outside {o len : Nat} (h : len ≤ o / 8) : setBitAddresses o len = [] :=
  if_neg (Nat.not_lt.2 h)

/-- The only flag of a SETBIT outside the buffer is `OOB` (60_exceptions R112). -/
theorem bitFlags_outside {o len : Nat} (h : len ≤ o / 8) :
    bitFlags o len = { oob := true, wtl := false, wz := false, ill := false } := by
  rw [bitFlags, decide_eq_true h]

/-- Settles O30: outside the buffer there is no byte to access, the memory stays, and `OOB` is
raised. -/
theorem setBitOutsideIsNoOp : Obligations.SetBitOutsideIsNoOp := by
  intro e o s h
  obtain ⟨m, run, unchanged, -, -⟩ := exec_setBit_sets_bit e o s
  refine ⟨?_, ?_⟩
  · rw [accessPlan_setBit_eq_setBitAddresses, setBitAddresses_outside h]
  · rw [run, unchanged h, bitFlags_outside h]

/-! ### Racing updates of one byte -/

/-- Settles O59: in each of the three runs both operations read byte 0 as 0 before the first write. The
last access, of the agent numbered 1, writes its own bits back over that old byte: bit 1 of the SETBIT, the high
half of `WRITE.L`, the low half of `WRITE.B`. -/
theorem concurrentUpdatesLoseOne : Obligations.ConcurrentUpdatesLoseOne := by
  refine ⟨_, rfl, rfl, rfl, rfl, ?writes⟩
  refine ⟨_, rfl, rfl, rfl, rfl, ?writeBesideSetBit⟩
  exact ⟨_, rfl, rfl, rfl, rfl⟩

end Sys2Proof.Machine

end

/-! ### The command encoding

The decoder as a function of `W0`: the six opcodes and the reserved words (30_encoding R45, R49). From
it, that decoding undoes encoding and that encoding gives back the words an instruction uses. -/

section

namespace Sys2Proof

open Sys2Proof.Machine Sys2Proof.Claims

theorem Descriptor.offset_ofWords (w0 w2 w3 : Word) {o : Nat} (h : o < 2 ^ 32) :
    (Descriptor.ofWords w0 (BitVec.ofNat 32 o) w2 w3).offset = o := by
  rw [Descriptor.offset, Descriptor.word1_ofWords, BitVec.toNat_ofNat, Nat.mod_eq_of_lt h]

theorem Descriptor.width_ofWords (w0 w1 w3 : Word) {w : Nat} (h : w < 2 ^ 32) :
    (Descriptor.ofWords w0 w1 (BitVec.ofNat 32 w) w3).width = w := by
  rw [Descriptor.width, Descriptor.word2_ofWords, BitVec.toNat_ofNat, Nat.mod_eq_of_lt h]

theorem encode_read (e : Endian) (o w : Nat) :
    encode (read e o w) =
      Descriptor.ofWords (read e 0 0).opcode (BitVec.ofNat 32 o) (BitVec.ofNat 32 w) 0 := by
  cases e <;> rfl

theorem encode_write (e : Endian) (o w : Nat) (v : Word) :
    encode (write e o w v) =
      Descriptor.ofWords (write e 0 0 0).opcode (BitVec.ofNat 32 o) (BitVec.ofNat 32 w) v := by
  cases e <;> rfl

theorem encode_setBit (e : Endian) (o : Nat) :
    encode (setBit e o) = Descriptor.ofWords (setBit e 0).opcode (BitVec.ofNat 32 o) 0 0 := by
  cases e <;> rfl

theorem decode_encode_read (e : Endian) {o w : Nat} (ho : o < 2 ^ 32) (hw : w < 2 ^ 32) :
    decode (encode (read e o w)) = .ok (read e o w) := by
  rw [encode_read, decode_of_word0_eq_read_opcode e (Descriptor.word0_ofWords _ _ _ _),
    Descriptor.offset_ofWords _ _ _ ho, Descriptor.width_ofWords _ _ _ hw]

theorem decode_encode_write (e : Endian) {o w : Nat} (v : Word) (ho : o < 2 ^ 32)
    (hw : w < 2 ^ 32) : decode (encode (write e o w v)) = .ok (write e o w v) := by
  rw [encode_write, decode_of_word0_eq_write_opcode e (Descriptor.word0_ofWords _ _ _ _),
    Descriptor.offset_ofWords _ _ _ ho, Descriptor.width_ofWords _ _ _ hw, Descriptor.value,
    Descriptor.word3_ofWords]

theorem decode_encode_setBit (e : Endian) {o : Nat} (ho : o < 2 ^ 32) :
    decode (encode (setBit e o)) = .ok (setBit e o) := by
  rw [encode_setBit, decode_of_word0_eq_setBit_opcode e (Descriptor.word0_ofWords _ _ _ _),
    Descriptor.offset_ofWords _ _ _ ho]

/-- The operands of a well-formed READ or WRITE fit their words. -/
theorem operands_fit {o w : Nat} (h : (offsetFits o && widthFits w) = true) :
    o < 2 ^ 32 ∧ w < 2 ^ 32 := by
  rwa [Bool.and_eq_true, offsetFits_iff, widthFits_iff] at h

/-- Settles O1: the opcode picks the row, and operands that fit their words come back from them. -/
theorem decodeEncodeRoundTrip : Obligations.DecodeEncodeRoundTrip := by
  intro i hwf
  cases i with
  | readL o w => exact decode_encode_read .little (operands_fit hwf).1 (operands_fit hwf).2
  | writeL o w v => exact decode_encode_write .little v (operands_fit hwf).1 (operands_fit hwf).2
  | setbit o => exact decode_encode_setBit .little ((offsetFits_iff o).1 hwf)
  | readB o w => exact decode_encode_read .big (operands_fit hwf).1 (operands_fit hwf).2
  | writeB o w v => exact decode_encode_write .big v (operands_fit hwf).1 (operands_fit hwf).2
  | setbitR o => exact decode_encode_setBit .big ((offsetFits_iff o).1 hwf)

/-! ### Reserved words and the table -/

/-- A word with `OP = 3` or a reserved bit set spells no instruction (30_encoding R49). -/
theorem decode_of_reserved {c : Descriptor} (h : c.op = 3#2 ∨ c.rsv ≠ 0#29) :
    ∃ r, decode c = .error r := by
  by_cases hr : c.rsv = 0#29
  · have hop : c.op = 3#2 := h.resolve_right (not_not_intro hr)
    exact ⟨.reservedOp, by simp [decode, hr, hop]⟩
  · exact ⟨.reservedBits, if_pos hr⟩

/-- `RSV` is `W0 / 8`. -/
theorem Descriptor.toNat_rsv (c : Descriptor) : c.rsv.toNat = (c.extractLsb' 0 32).toNat / 8 := by
  have in_word : (c.extractLsb' 0 32).toNat < 2 ^ 32 := BitVec.isLt _
  rw [Descriptor.rsv_eq, BitVec.extractLsb'_toNat, Nat.shiftRight_eq_div_pow]
  exact Nat.mod_eq_of_lt (by omega)

/-- `OP` is `W0 mod 4`. -/
theorem Descriptor.toNat_op (c : Descriptor) : c.op.toNat = (c.extractLsb' 0 32).toNat % 4 := by
  rw [Descriptor.op_eq, BitVec.extractLsb'_toNat]
  rfl

/-- A `W0` outside the table of 30_encoding R45 is reserved. -/
theorem decode_of_word0_reserved {c : Descriptor}
    (h : (c.extractLsb' 0 32).toNat = 3 ∨ (c.extractLsb' 0 32).toNat = 7 ∨
      8 ≤ (c.extractLsb' 0 32).toNat) : ∃ r, decode c = .error r := by
  have op := c.toNat_op
  have rsv := c.toNat_rsv
  by_cases small : (c.extractLsb' 0 32).toNat < 8
  · refine decode_of_reserved (.inl (BitVec.eq_of_toNat_eq ?_))
    rw [op, BitVec.toNat_ofNat]
    omega
  · refine decode_of_reserved (.inr fun zero => ?_)
    rw [zero, BitVec.toNat_zero] at rsv
    omega

/-- Settles O3: each row by its opcode, and the rest is reserved. -/
theorem decoderReadsTheTable : Obligations.DecoderReadsTheTable := by
  intro c
  exact ⟨fun h => decode_of_word0_eq_read_opcode .little (BitVec.eq_of_toNat_eq h),
    fun h => decode_of_word0_eq_write_opcode .little (BitVec.eq_of_toNat_eq h),
    fun h => decode_of_word0_eq_setBit_opcode .little (BitVec.eq_of_toNat_eq h),
    fun h => decode_of_word0_eq_read_opcode .big (BitVec.eq_of_toNat_eq h),
    fun h => decode_of_word0_eq_write_opcode .big (BitVec.eq_of_toNat_eq h),
    fun h => decode_of_word0_eq_setBit_opcode .big (BitVec.eq_of_toNat_eq h),
    decode_of_word0_reserved⟩

/-- The `W0` of a descriptor that spells an instruction is an opcode of the table. -/
theorem word0_of_decode {c : Descriptor} {i : Instr} (h : decode c = .ok i) :
    ∃ e, c.extractLsb' 0 32 = (read e 0 0).opcode ∨ c.extractLsb' 0 32 = (write e 0 0 0).opcode ∨
      c.extractLsb' 0 32 = (setBit e 0).opcode := by
  have legal : ¬ ((c.extractLsb' 0 32).toNat = 3 ∨ (c.extractLsb' 0 32).toNat = 7 ∨
      8 ≤ (c.extractLsb' 0 32).toNat) := fun reserved => by
    obtain ⟨r, refused⟩ := decode_of_word0_reserved reserved
    rw [h] at refused
    cases refused
  generalize c.extractLsb' 0 32 = w0 at legal
  obtain rfl | rfl | rfl | rfl | rfl | rfl : w0 = 0#32 ∨ w0 = 1#32 ∨ w0 = 2#32 ∨ w0 = 4#32 ∨
      w0 = 5#32 ∨ w0 = 6#32 := by
    simp only [← BitVec.toNat_inj, BitVec.toNat_ofNat, Nat.reducePow, Nat.reduceMod]
    omega
  · exact ⟨.little, .inl rfl⟩
  · exact ⟨.little, .inr (.inl rfl)⟩
  · exact ⟨.little, .inr (.inr rfl)⟩
  · exact ⟨.big, .inl rfl⟩
  · exact ⟨.big, .inr (.inl rfl)⟩
  · exact ⟨.big, .inr (.inr rfl)⟩

/-- What the decoder can read from a descriptor: READ, WRITE or SETBIT of either byte order, with the
opcode of it in `W0` and its operands in the words after that. -/
theorem decode_cases {c : Descriptor} {i : Instr} (h : decode c = .ok i) : ∃ e,
    (c.extractLsb' 0 32 = (read e 0 0).opcode ∧ i = read e c.offset c.width) ∨
    (c.extractLsb' 0 32 = (write e 0 0 0).opcode ∧ i = write e c.offset c.width c.value) ∨
    (c.extractLsb' 0 32 = (setBit e 0).opcode ∧ i = setBit e c.offset) := by
  obtain ⟨e, hw | hw | hw⟩ := word0_of_decode h
  · have row := decode_of_word0_eq_read_opcode e hw
    exact ⟨e, .inl ⟨hw, Except.ok.inj (h.symm.trans row)⟩⟩
  · have row := decode_of_word0_eq_write_opcode e hw
    exact ⟨e, .inr (.inl ⟨hw, Except.ok.inj (h.symm.trans row)⟩)⟩
  · have row := decode_of_word0_eq_setBit_opcode e hw
    exact ⟨e, .inr (.inr ⟨hw, Except.ok.inj (h.symm.trans row)⟩)⟩

/-! ### Encoding what was decoded -/

/-- The low half of a descriptor is its words 0 and 1. -/
theorem Descriptor.low_ofWords (c : Descriptor) (w2 w3 : Word) :
    (Descriptor.ofWords (c.extractLsb' 0 32) (c.extractLsb' 32 32) w2 w3).extractLsb' 0 64 =
      c.extractLsb' 0 64 := by
  apply BitVec.eq_of_getLsbD_eq
  intro j hj
  have same := congrArg (BitVec.getLsbD · j) c.ofWords_words
  simp only [Descriptor.getLsbD_ofWords] at same
  simp only [BitVec.getLsbD_extractLsb', Descriptor.getLsbD_ofWords, hj, Nat.zero_add]
  split at same <;> simp_all

/-- The high half of a descriptor is its words 2 and 3. -/
theorem Descriptor.high_ofWords (c : Descriptor) (w0 w1 : Word) :
    (Descriptor.ofWords w0 w1 (c.extractLsb' 64 32) (c.extractLsb' 96 32)).extractLsb' 64 64 =
      c.extractLsb' 64 64 := by
  apply BitVec.eq_of_getLsbD_eq
  intro j hj
  have same := congrArg (BitVec.getLsbD · (64 + j)) c.ofWords_words
  rw [Descriptor.getLsbD_ofWords, if_neg (by omega), if_neg (by omega)] at same
  rw [BitVec.getLsbD_extractLsb', BitVec.getLsbD_extractLsb', Descriptor.getLsbD_ofWords,
    if_neg (by omega), if_neg (by omega), same]

theorem Descriptor.ofNat_offset (c : Descriptor) : BitVec.ofNat 32 c.offset = c.extractLsb' 32 32 := by
  rw [Descriptor.offset, BitVec.ofNat_toNat, BitVec.setWidth_eq]

theorem Descriptor.ofNat_width (c : Descriptor) : BitVec.ofNat 32 c.width = c.extractLsb' 64 32 := by
  rw [Descriptor.width, BitVec.ofNat_toNat, BitVec.setWidth_eq]

theorem Descriptor.offsetFits_offset (c : Descriptor) : offsetFits c.offset = true :=
  (offsetFits_iff _).2 (BitVec.isLt _)

theorem Descriptor.widthFits_width (c : Descriptor) : widthFits c.width = true :=
  (widthFits_iff _).2 (BitVec.isLt _)

/-- Settles O2: by the decoder's cases; the words of the descriptor that the instruction takes as
operands are those the encoder makes of them. -/
theorem encodeDecodeKeepsUsedBits : Obligations.EncodeDecodeKeepsUsedBits := by
  intro c i h
  have fits : (offsetFits c.offset && widthFits c.width) = true := by
    rw [c.offsetFits_offset, c.widthFits_width]
    rfl
  obtain ⟨e, ⟨hw, rfl⟩ | ⟨hw, rfl⟩ | ⟨hw, rfl⟩⟩ := decode_cases h
  · have words := encode_read e c.offset c.width
    rw [← hw, c.ofNat_offset, c.ofNat_width] at words
    have low := c.low_ofWords (c.extractLsb' 64 32) 0
    have word2 := Descriptor.word2_ofWords (c.extractLsb' 0 32) (c.extractLsb' 32 32)
      (c.extractLsb' 64 32) 0
    rw [← words] at low word2
    cases e <;> exact ⟨fits, low, word2⟩
  · have words := encode_write e c.offset c.width c.value
    rw [← hw, c.ofNat_offset, c.ofNat_width] at words
    have low := c.low_ofWords (c.extractLsb' 64 32) c.value
    have high := c.high_ofWords (c.extractLsb' 0 32) (c.extractLsb' 32 32)
    rw [← Descriptor.value, ← words] at high
    rw [← words] at low
    cases e <;> exact ⟨fits, low, high⟩
  · have words := encode_setBit e c.offset
    rw [← hw, c.ofNat_offset] at words
    have low := c.low_ofWords 0 0
    rw [← words] at low
    cases e <;> exact ⟨c.offsetFits_offset, low, trivial⟩

/-- Settles O4: each word by evaluating the decoder. -/
theorem sampleWordsDecode : Obligations.SampleWordsDecode := by
  unfold Obligations.SampleWordsDecode
  decide

/-! ### A command as a step -/

theorem step_command {s : State} {c : Descriptor} {len : BitVec 32} {rest : List HostEvent}
    {i : Instr} (hq : s.queue = .command c len :: rest) (h : decode c = .ok i) :
    step s = exec i ((s.withQueue rest).present len) := by
  rw [step, hq]
  simp only [h]

theorem step_reserved {s : State} {c : Descriptor} {len : BitVec 32} {rest : List HostEvent}
    {r : DecodeError} (hq : s.queue = .command c len :: rest) (h : decode c = .error r) :
    step s = .next ((s.withQueue rest).present len).respondReserved := by
  rw [step, hq]
  simp only [h]

/-- Settles O6: taking the command off the queue and presenting its length is all that a step does
besides the instruction. -/
theorem stepRunsDecodedCommand : Obligations.StepRunsDecodedCommand :=
  fun _ _ _ _ _ => step_command

/-- Settles O7: the placed command presents the length the state holds, and taking it off the queue
again gives the state back. -/
theorem placedWordRunsNext : Obligations.PlacedWordRunsNext := by
  intro s nbits w i h hlen
  have decoded : decode (tableDescriptor nbits w) = .ok i := by
    unfold decodeTableWord at h
    split at h
    · next hd => exact hd.trans (congrArg _ (Option.some.inj h))
    · cases h
  have same_len : (BitVec.ofNat 32 s.len).toNat = s.len := by
    rw [BitVec.toNat_ofNat, Nat.mod_eq_of_lt hlen]
  rw [step_command (s := s.withFetchWord nbits w) rfl decoded]
  simp only [State.withFetchWord, State.queueCommand, State.withQueue, State.present, same_len]

/-- Settles O8: the decoder refuses the word, and the answer is the model's for a reserved one. -/
theorem reservedCommandAnswered : Obligations.ReservedCommandAnswered := by
  intro s c len rest hq hres
  obtain ⟨r, hd⟩ := decode_of_reserved hres
  exact ⟨⟨r, hd⟩, step_reserved hq hd⟩

/-- Commands that decode alike step alike. -/
theorem step_command_congr {c c' : Descriptor} (h : decode c = decode c') (len : BitVec 32)
    (s : State) (rest : List HostEvent) :
    step { s with queue := .command c len :: rest } =
      step { s with queue := .command c' len :: rest } := by
  simp only [step, h]
  rfl

/-- A field of the low bits of a descriptor is a field of the descriptor. -/
theorem Descriptor.extractLsb'_low (c : Descriptor) {n start k : Nat} (h : start + k ≤ n) :
    (c.extractLsb' 0 n).extractLsb' start k = c.extractLsb' start k := by
  apply BitVec.eq_of_getLsbD_eq
  intro j hj
  simp only [BitVec.getLsbD_extractLsb', Nat.zero_add, hj, decide_true, Bool.true_and]
  rw [decide_eq_true (by omega), Bool.true_and]

/-- Descriptors that agree below bit `n` agree in the fields below it. -/
theorem Descriptor.extractLsb'_congr {c c' : Descriptor} {n : Nat}
    (h : c.extractLsb' 0 n = c'.extractLsb' 0 n) {start k : Nat} (below : start + k ≤ n) :
    c.extractLsb' start k = c'.extractLsb' start k := by
  rw [← c.extractLsb'_low below, h, c'.extractLsb'_low below]

/-- A READ depends on `W0`, `W1` and `W2` alone (30_encoding R47). -/
theorem decode_read_congr {c c' : Descriptor} (e : Endian)
    (hw : c.extractLsb' 0 32 = (read e 0 0).opcode) (h : c.extractLsb' 0 96 = c'.extractLsb' 0 96) :
    decode c = decode c' := by
  have hw' := (Descriptor.extractLsb'_congr h (start := 0) (k := 32) (by decide)).symm.trans hw
  rw [decode_of_word0_eq_read_opcode e hw, decode_of_word0_eq_read_opcode e hw', Descriptor.offset,
    Descriptor.width, Descriptor.extractLsb'_congr h (start := 32) (k := 32) (by decide),
    Descriptor.extractLsb'_congr h (start := 64) (k := 32) (by decide)]
  rfl

/-- A SETBIT depends on `W0` and `W1` alone (30_encoding R47). -/
theorem decode_setBit_congr {c c' : Descriptor} (e : Endian)
    (hw : c.extractLsb' 0 32 = (setBit e 0).opcode) (h : c.extractLsb' 0 64 = c'.extractLsb' 0 64) :
    decode c = decode c' := by
  have hw' := (Descriptor.extractLsb'_congr h (start := 0) (k := 32) (by decide)).symm.trans hw
  rw [decode_of_word0_eq_setBit_opcode e hw, decode_of_word0_eq_setBit_opcode e hw',
    Descriptor.offset, Descriptor.extractLsb'_congr h (start := 32) (k := 32) (by decide)]
  rfl

/-- Settles O5: commands that differ in ignored words only decode alike. -/
theorem ignoredWordsDoNotMatter : Obligations.IgnoredWordsDoNotMatter := by
  refine ⟨fun c c' len s rest hw h => ?_, fun c c' len s rest hw h => ?_, fun e o s => ?_⟩
  · refine step_command_congr ?_ len s rest
    obtain hw | hw := hw
    · exact decode_read_congr .little (BitVec.eq_of_toNat_eq hw) h
    · exact decode_read_congr .big (BitVec.eq_of_toNat_eq hw) h
  · refine step_command_congr ?_ len s rest
    obtain hw | hw := hw
    · exact decode_setBit_congr .little (BitVec.eq_of_toNat_eq hw) h
    · exact decode_setBit_congr .big (BitVec.eq_of_toNat_eq hw) h
  · exact ⟨_, _, exec_setBit e o s, s.afterSetBit_responses _ o, rfl, rfl⟩

/-! ### The response word -/

/-- Settles O9: the response word is its fields joined, `rdata` lowest. -/
theorem responseWordLayout : Obligations.ResponseWordLayout := by
  intro r
  refine ⟨?_, ?_, ?_, ?_, ?_⟩
  · apply BitVec.eq_of_getLsbD_eq
    intro j hj
    rw [BitVec.getLsbD_extractLsb', Response.word]
    simp only [BitVec.getLsbD_append]
    simp [hj, show j < 33 by omega, show j < 34 by omega, show j < 35 by omega]
  all_goals
    rw [Response.word]
    simp only [BitVec.getLsbD_append]
    simp

end Sys2Proof

end

/-! ### The byte order of the host does not show

A twin of a state has any `HOST_BIG` and any scratch contents and is equal in all else. Every operation
takes twins to twins, because the results and the bytes written do not depend on the byte order of the
host (40_datapath R66, R72) and nothing reads the scratch register before clearing it (R63). -/

section

namespace Sys2Proof.Machine

/-- The twin of a state: another byte order of the host, other scratch contents. -/
def State.twin (s : State) (big : Bool) (scr : Scratch) : State :=
  { s with scr := scr, build := { s.build with hostBig := big } }

/-- Outcomes of which the second is the first's, up to a twin in a next state. -/
inductive TwinOutcomes (big : Bool) :
    Host.Outcome State Fault Refusal → Host.Outcome State Fault Refusal → Prop where
  | next (t : State) (scr : Scratch) : TwinOutcomes big (.next t) (.next (t.twin big scr))
  | fault (r : Fault) : TwinOutcomes big (.fault r) (.fault r)
  | refused (r : Refusal) : TwinOutcomes big (.refused r) (.refused r)

theorem TwinOutcomes.of_eq {big : Bool} {scr : Scratch} {t t' : State} (h : t' = t.twin big scr) :
    TwinOutcomes big (.next t) (.next t') := h ▸ .next t scr

@[simp] theorem State.flightOf_twin (s : State) (big : Bool) (scr : Scratch) (k : Nat) :
    (s.twin big scr).flightOf k = s.flightOf k := rfl

theorem State.afterRead_twin (s : State) (big : Bool) (scr : Scratch) (e : Endian) (o w : Nat) :
    ∃ scr', (s.twin big scr).afterRead e o w = (s.afterRead e o w).twin big scr' := by
  cases h : suppressed s.build.strict (fieldStatus o w s.len) with
  | true => exact ⟨scr, by simp [State.afterRead, State.twin, State.respond, h]⟩
  | false =>
    have value := readValue_eq big e o w (length_spanBytes_le s.mem o w s.len)
    rw [← readValue_eq s.build.hostBig e o w (length_spanBytes_le s.mem o w s.len)] at value
    exact ⟨gatherScratch big e (spanBytes s.mem o w s.len), by
      simp [State.afterRead, State.twin, State.respond, State.withScr, h, value]⟩

theorem State.writtenMem_twin (s : State) (big : Bool) (scr : Scratch) (e : Endian) (o w : Nat)
    (v : Word) : (s.twin big scr).writtenMem e o w v = s.writtenMem e o w v := by
  have bytes := writeBytes_eq big e o w v (length_spanBytes_le s.mem o w s.len)
  rw [← writeBytes_eq s.build.hostBig e o w v (length_spanBytes_le s.mem o w s.len)] at bytes
  exact congrArg (s.mem.writeFrom (byteBegin o s.len)) bytes

theorem State.afterWrite_twin (s : State) (big : Bool) (scr : Scratch) (e : Endian) (o w : Nat)
    (v : Word) : ∃ scr', (s.twin big scr).afterWrite e o w v = (s.afterWrite e o w v).twin big scr' := by
  have written := s.writtenMem_twin big scr e o w v
  cases h : suppressed s.build.strict (fieldStatus o w s.len) with
  | true => exact ⟨scr, by simp [State.afterWrite, State.twin, State.respond, h]⟩
  | false =>
    exact ⟨writeScratch big e o w v (spanBytes s.mem o w s.len), by
      rw [State.afterWrite, written]
      simp [State.afterWrite, State.twin, State.respond, State.withScr, h]⟩

theorem State.afterSetBit_twin (s : State) (big : Bool) (scr : Scratch) (reversed : Bool) (o : Nat) :
    (s.twin big scr).afterSetBit reversed o = (s.afterSetBit reversed o).twin big scr := by
  by_cases h : o / 8 < s.len
  · rw [State.afterSetBit, State.afterSetBit, if_pos h, if_pos (show o / 8 < (s.twin big scr).len from h)]
    rfl
  · rw [State.afterSetBit, State.afterSetBit, if_neg h, if_neg (show ¬ o / 8 < (s.twin big scr).len from h)]
    rfl

/-- Every instruction takes twins to twins. -/
theorem State.after_twin (s : State) (big : Bool) (scr : Scratch) (i : Instr) :
    ∃ scr', (s.twin big scr).after i = (s.after i).twin big scr' := by
  cases i with
  | readL o w => exact s.afterRead_twin big scr .little o w
  | writeL o w v => exact s.afterWrite_twin big scr .little o w v
  | setbit o => exact ⟨scr, s.afterSetBit_twin big scr false o⟩
  | readB o w => exact s.afterRead_twin big scr .big o w
  | writeB o w v => exact s.afterWrite_twin big scr .big o w v
  | setbitR o => exact ⟨scr, s.afterSetBit_twin big scr true o⟩

theorem writebackOf_hostBig (big big' : Bool) (i : Instr) {bytes : List Byte}
    (h : bytes.length ≤ 8) : writebackOf big i bytes = writebackOf big' i bytes := by
  cases i with
  | writeL o w v => exact bytesLeft_hostBig big big' (.writeL o w v) h
  | writeB o w v => exact bytesLeft_hostBig big big' (.writeB o w v) h
  | readL | setbit | readB | setbitR => rfl

/-- The bytes an agent has read fit the scratch register. -/
theorem length_bytesGot_le (f : Flight) (got : List Host.Cell) : (bytesGot f got).length ≤ 8 := by
  have := addressesOf_length_le f.op f.len
  rw [bytesGot, List.length_map]
  omega

theorem settleWrites_twin (s : State) (big : Bool) (scr : Scratch) (f : Flight) (r : Word)
    (left : List Host.Cell) :
    settleWrites (s.twin big scr) f r left = (settleWrites s f r left).twin big scr := by
  cases left <;> rfl

theorem settleReads_twin (s : State) (big : Bool) (scr : Scratch) (f : Flight) (left : List Nat)
    (got : List Host.Cell) :
    settleReads (s.twin big scr) f left got = (settleReads s f left got).twin big scr := by
  cases left with
  | cons a as => rfl
  | nil =>
    have fit := length_bytesGot_le f got
    have result := resultOf_hostBig big s.build.hostBig f.op fit
    have writes : pendingWrites big f got = pendingWrites s.build.hostBig f got :=
      congrArg _ (writebackOf_hostBig big s.build.hostBig f.op fit)
    rw [settleReads, settleReads, ← result, ← writes]
    exact settleWrites_twin s big scr f _ _

theorem issue_twin (k : Nat) (c : Descriptor) (len : BitVec 32) (s : State) (big : Bool)
    (scr : Scratch) : TwinOutcomes big (issue k c len s) (issue k c len (s.twin big scr)) := by
  rw [issue, issue, State.flightOf_twin]
  cases s.flightOf k with
  | some f => exact .refused _
  | none =>
    cases decode c with
    | error r => exact .next _ scr
    | ok i =>
      dsimp only
      by_cases h : suppressed s.build.strict (statusOf i len.toNat) = true
      · rw [if_pos h, if_pos (show suppressed (s.twin big scr).build.strict _ = true from h)]
        exact .next _ scr
      · rw [if_neg h, if_neg (show ¬ suppressed (s.twin big scr).build.strict _ = true from h)]
        exact .of_eq (settleReads_twin s big scr _ _ _)

theorem access_twin (k a : Nat) (s : State) (big : Bool) (scr : Scratch) :
    TwinOutcomes big (access k a s) (access k a (s.twin big scr)) := by
  rw [access, access, State.flightOf_twin]
  cases s.flightOf k with
  | none => exact .next s scr
  | some f =>
    cases hp : f.phase with
    | reading left got =>
      simp only [hp]
      by_cases ha : a ∈ left
      · rw [if_pos ha, if_pos ha]
        by_cases hl : a < f.len
        · rw [if_pos hl, if_pos hl]
          exact .of_eq (settleReads_twin s big scr f _ _)
        · rw [if_neg hl, if_neg hl]
          exact .fault _
      · rw [if_neg ha, if_neg ha]
        exact .next s scr
    | writing left =>
      simp only [hp]
      cases left.find? (fun c => decide (c.1 = a)) with
      | none => exact .next s scr
      | some c =>
        by_cases hl : a < f.len
        · simp only [if_pos hl]
          exact .of_eq (settleWrites_twin { s with mem := s.mem.write a c.2 } big scr f 0 _)
        · simp only [if_neg hl]
          exact .fault _

theorem advance_twin (s : State) (big : Bool) (scr : Scratch) :
    TwinOutcomes big (advance s) (advance (s.twin big scr)) := by
  rw [advance, advance, show (s.twin big scr).inFlight = s.inFlight from rfl]
  cases s.inFlight with
  | nil => exact .next s scr
  | cons f fs =>
    cases hp : f.phase with
    | reading left got =>
      cases left with
      | nil =>
        simp only [hp]
        exact .of_eq (settleReads_twin s big scr f [] got)
      | cons a as =>
        simp only [hp]
        exact access_twin f.inst a s big scr
    | writing left =>
      cases left with
      | nil =>
        simp only [hp]
        exact .next (s.finish f 0) scr
      | cons c cs =>
        simp only [hp]
        exact access_twin f.inst c.1 s big scr

theorem step_twin (s : State) (big : Bool) (scr : Scratch) :
    TwinOutcomes big (step s) (step (s.twin big scr)) := by
  rw [step, step, show (s.twin big scr).queue = s.queue from rfl]
  cases s.queue with
  | nil => exact advance_twin s big scr
  | cons e rest =>
    cases e with
    | command c len =>
      cases hd : decode c with
      | error r =>
        simp only [hd]
        exact .next ((s.withQueue rest).present len).respondReserved scr
      | ok i =>
        obtain ⟨scr', after⟩ := ((s.withQueue rest).present len).after_twin big scr i
        simp only [hd, exec_eq]
        exact .of_eq after
    | store a b => exact .next ((s.withQueue rest).hostStore a b) scr
    | reset => exact .next (s.withQueue rest).resetByHost Scratch.zero
    | issue k c len => exact issue_twin k c len (s.withQueue rest) big scr
    | access k a => exact access_twin k a (s.withQueue rest) big scr

/-- Settles O45: every act takes twins to twins. -/
theorem hostByteOrderIsInvisible : Obligations.HostByteOrderIsInvisible := by
  intro s big scr
  have twins := step_twin s big scr
  rw [State.twin] at twins
  generalize step s = r, step { s with scr := scr, build := { s.build with hostBig := big } } = r'
    at twins ⊢
  cases twins with
  | next t scr' => exact ⟨scr', rfl⟩
  | fault r => rfl
  | refused r => rfl

end Sys2Proof.Machine

end

/-! ### The invariant

Memory and length by the laws of the instructions and of the memory; of the operations in progress, a
step changes at most those of one agent, the one with a number `Flight.inst`, and leaves that one at
most one (20_memory R34, R35). -/

section

namespace Sys2Proof.Machine

/-- Settles O48: nothing is listed in memory and nothing is in progress. -/
theorem resetMeetsInvariant : Obligations.ResetMeetsInvariant := by
  unfold Obligations.ResetMeetsInvariant
  decide

theorem Flight.inside_of_reading {f : Flight} {left : List Nat} {got : List Host.Cell}
    (hp : f.phase = .reading left got) :
    f.inside = true ↔ f.len < 2 ^ 32 ∧ left ≠ [] ∧ ∀ a ∈ left, a < f.len := by
  rw [← Flight.inside_reading f left got, ← hp]

theorem Flight.inside_of_writing {f : Flight} {left : List Host.Cell}
    (hp : f.phase = .writing left) :
    f.inside = true ↔ f.len < 2 ^ 32 ∧ left ≠ [] ∧ ∀ c ∈ left, c.1 < f.len := by
  rw [← Flight.inside_writing f left, ← hp]

theorem Flight.len_lt_of_inside {f : Flight} (h : f.inside = true) : f.len < 2 ^ 32 := by
  cases hp : f.phase with
  | reading left got => exact ((Flight.inside_of_reading hp).1 h).1
  | writing left => exact ((Flight.inside_of_writing hp).1 h).1

/-- The invariant stays when the operations of one agent give way to at most one of its own that is
inside its buffer. -/
theorem State.Inv.replaceFlights {s t : State} (h : s.Inv) {k : Nat} {new : List Flight}
    (hmem : t.mem = s.mem) (hlen : t.len = s.len)
    (hflights : t.inFlight = new ++ s.inFlight.filter fun g => decide (g.inst ≠ k))
    (hnew : new = [] ∨ ∃ f, new = [f] ∧ f.inst = k ∧ f.inside = true) : t.Inv := by
  obtain ⟨wf, below, len, inside, nodup⟩ := h
  have others_inside : ∀ g ∈ s.inFlight.filter (fun g => decide (g.inst ≠ k)), g.inside = true :=
    fun g hg => inside g (List.mem_of_mem_filter hg)
  have others_nodup : ((s.inFlight.filter fun g => decide (g.inst ≠ k)).map Flight.inst).Nodup :=
    nodup.sublist (List.filter_sublist.map _)
  refine ⟨hmem ▸ wf, hmem ▸ below, hlen ▸ len, ?_, ?_⟩
  · rw [hflights]
    obtain rfl | ⟨f, rfl, -, hf⟩ := hnew
    · exact others_inside
    · exact List.forall_mem_cons.2 ⟨hf, others_inside⟩
  · rw [hflights]
    obtain rfl | ⟨f, rfl, rfl, -⟩ := hnew
    · exact others_nodup
    · exact List.nodup_cons.2 ⟨by simp, others_nodup⟩

/-- Settling writes inside the buffer keeps the invariant. -/
theorem State.Inv.of_settleWrites {s : State} (h : s.Inv) {f : Flight} (r : Word)
    {left : List Host.Cell} (hlen : f.len < 2 ^ 32) (hleft : ∀ c ∈ left, c.1 < f.len) :
    (settleWrites s f r left).Inv := by
  obtain ⟨hmem, hl, -⟩ := settleWrites_frame s f r left
  refine h.replaceFlights hmem hl (settleWrites_inFlight s f r left) ?_
  by_cases hn : left = []
  · exact .inl (if_pos hn)
  · exact .inr ⟨_, if_neg hn, rfl, (Flight.inside_writing f left).2 ⟨hlen, hn, hleft⟩⟩

/-- Settling reads inside the buffer keeps the invariant: the writes go to the operation's own
addresses. -/
theorem State.Inv.of_settleReads {s : State} (h : s.Inv) {f : Flight} {left : List Nat}
    (got : List Host.Cell) (hlen : f.len < 2 ^ 32) (hleft : ∀ a ∈ left, a < f.len) :
    (settleReads s f left got).Inv := by
  cases left with
  | nil => exact h.of_settleWrites _ hlen fun c hc => addressesOf_lt (pendingWrites_mem hc)
  | cons a as =>
    obtain ⟨hmem, hl, -⟩ := settleReads_frame s f (a :: as) got
    refine h.replaceFlights hmem hl (settleReads_inFlight s f (a :: as) got)
      (.inr ⟨_, if_neg (List.cons_ne_nil a as), rfl, ?_⟩)
    exact (Flight.inside_reading f (a :: as) got).2 ⟨hlen, List.cons_ne_nil a as, hleft⟩

theorem State.Inv.write {s : State} (h : s.Inv) {a : Nat} (ha : a < 2 ^ 32) (b : Byte) :
    ({ s with mem := s.mem.write a b } : State).Inv := by
  obtain ⟨wf, below, rest⟩ := h
  exact ⟨Memory.write_wf wf a b, Memory.write_below below ha b, rest⟩

/-- Every instruction keeps the invariant. -/
theorem State.Inv.after {s : State} (h : s.Inv) (i : Instr) : (s.after i).Inv := by
  obtain ⟨wf, below, len, flights⟩ := h
  obtain ⟨hlen, hflights, -⟩ := s.after_frame i
  refine ⟨s.after_wf i wf, s.after_below i below len.le, hlen ▸ len, ?_⟩
  rwa [hflights]

theorem State.Inv.finish {s : State} (h : s.Inv) (f : Flight) (r : Word) : (s.finish f r).Inv :=
  h.replaceFlights (k := f.inst) rfl rfl rfl (.inl rfl)

theorem State.Inv.present {s : State} (h : s.Inv) (rest : List HostEvent) (len : BitVec 32) :
    ((s.withQueue rest).present len).Inv := by
  obtain ⟨wf, below, -, flights⟩ := h
  exact ⟨wf, below, len.isLt, flights⟩

/-- Presenting a command to an agent keeps the invariant. -/
theorem State.Inv.of_issue {s t : State} (h : s.Inv) {k : Nat} {c : Descriptor} {len : BitVec 32}
    (hx : issue k c len s = .next t) : t.Inv := by
  obtain ⟨-, run⟩ | ⟨-, ⟨-, run⟩ | ⟨i, -, ⟨-, run⟩ | ⟨-, run⟩⟩⟩ := issue_cases k c len s <;>
    cases run.symm.trans hx
  case inr.inl => exact h
  case inr.inr.inl => exact h.finish _ 0
  case inr.inr.inr => exact h.of_settleReads [] len.isLt fun a => addressesOf_lt

/-- One access of an agent keeps the invariant. -/
theorem State.Inv.of_access {s t : State} (h : s.Inv) {k a : Nat} (hx : access k a s = .next t) :
    t.Inv := by
  obtain ⟨-, -, -, inside, -⟩ := id h
  obtain run | ⟨f, hf, ⟨left, got, hp, -, -, run⟩ | ⟨left, b, hp, -, ha, run⟩ | ⟨-, run, -⟩⟩ :=
    access_cases k a s <;> cases run.symm.trans hx
  case inl => exact h
  case inr.inl =>
    obtain ⟨hlen, -, hleft⟩ :=
      (Flight.inside_of_reading hp).1 (inside f (State.flightOf_some hf).1)
    exact h.of_settleReads _ hlen fun c hc => hleft c (List.mem_of_mem_erase hc)
  case inr.inr.inl =>
    obtain ⟨hlen, -, hleft⟩ :=
      (Flight.inside_of_writing hp).1 (inside f (State.flightOf_some hf).1)
    exact (h.write (ha.trans hlen) b).of_settleWrites 0 hlen fun c hc =>
      hleft c (List.mem_of_mem_filter hc)

/-- Going on without an act of the host keeps the invariant. -/
theorem State.Inv.of_advance {s t : State} (h : s.Inv) (hx : advance s = .next t) : t.Inv := by
  obtain ⟨-, rfl⟩ | ⟨f, fs, hf, ⟨a, hx⟩ | ⟨got, -, rfl⟩ | ⟨-, rfl⟩⟩ := advance_cases hx
  · exact h
  · exact h.of_access hx
  · obtain ⟨-, -, -, inside, -⟩ := id h
    have inside := inside f (hf ▸ List.mem_cons_self)
    exact h.of_settleReads got (Flight.len_lt_of_inside inside) fun a ha => nomatch ha
  · exact h.finish f 0

/-- Settles O49: each act keeps the invariant. -/
theorem stepKeepsInvariant : Obligations.StepKeepsInvariant := by
  intro s t h hx
  obtain ⟨-, hx⟩ | ⟨e, rest, -, ⟨c, len, i, -, -, rfl⟩ | ⟨c, len, r, -, -, rfl⟩ |
    ⟨a, b, -, rfl⟩ | ⟨-, rfl⟩ | ⟨k, c, len, -, hx⟩ | ⟨k, a, -, hx⟩⟩ := step_cases hx
  · exact h.of_advance hx
  · exact (h.present rest len).after i
  · exact h.present rest len
  · exact h.write a.isLt b
  · obtain ⟨wf, below, -⟩ := h
    exact ⟨wf, below, Nat.two_pow_pos 32, fun f hf => (List.not_mem_nil hf).elim, List.nodup_nil⟩
  · exact State.Inv.of_issue (s := s.withQueue rest) h hx
  · exact State.Inv.of_access (s := s.withQueue rest) h hx

/-! ### Steps that stop -/

/-- From the invariant no access faults: those left are inside the buffer. -/
theorem State.Inv.exists_access {s : State} (h : s.Inv) (k a : Nat) : ∃ t, access k a s = .next t := by
  obtain ⟨-, -, -, inside, -⟩ := h
  obtain run | ⟨f, hf, ⟨left, got, -, -, -, run⟩ | ⟨left, b, -, -, -, run⟩ |
    ⟨outside, -, ⟨left, got, hp, ha⟩ | ⟨left, b, hp, ha⟩⟩⟩ := access_cases k a s
  · exact ⟨_, run⟩
  · exact ⟨_, run⟩
  · exact ⟨_, run⟩
  · exact absurd
      (((Flight.inside_of_reading hp).1 (inside f (State.flightOf_some hf).1)).2.2 a ha) outside
  · exact absurd
      (((Flight.inside_of_writing hp).1 (inside f (State.flightOf_some hf).1)).2.2 _ ha) outside

/-- From the invariant the operations in progress can always go on. -/
theorem State.Inv.exists_advance {s : State} (h : s.Inv) : ∃ t, advance s = .next t := by
  cases hf : s.inFlight with
  | nil => exact ⟨s, advance_of_none hf⟩
  | cons f fs =>
    obtain ⟨-, -, -, inside, -⟩ := id h
    obtain ⟨a, go, -⟩ := advance_of_inside hf (inside f (hf ▸ List.mem_cons_self))
    exact go ▸ h.exists_access f.inst a

/-- A free agent takes every command. -/
theorem exists_issue {k : Nat} {s : State} (h : s.flightOf k = none) (c : Descriptor)
    (len : BitVec 32) : ∃ t, issue k c len s = .next t := by
  obtain ⟨busy, -⟩ | ⟨-, ⟨-, run⟩ | ⟨i, -, ⟨-, run⟩ | ⟨-, run⟩⟩⟩ := issue_cases k c len s
  · rw [h] at busy
    cases busy
  · exact ⟨_, run⟩
  · exact ⟨_, run⟩
  · exact ⟨_, run⟩

/-- A busy agent takes no command. -/
theorem issue_of_busy {k : Nat} {s : State} {f : Flight} (h : s.flightOf k = some f)
    (c : Descriptor) (len : BitVec 32) : issue k c len s = .refused .instanceBusy := by
  rw [issue, h]

theorem step_of_issue {s : State} {k : Nat} {c : Descriptor} {len : BitVec 32}
    {rest : List HostEvent} (hq : s.queue = .issue k c len :: rest) :
    step s = issue k c len (s.withQueue rest) := by
  rw [step, hq]

theorem State.hostBreaksTurn_of_issue {s : State} {k : Nat} {c : Descriptor} {len : BitVec 32}
    {rest : List HostEvent} (hq : s.queue = .issue k c len :: rest) :
    s.hostBreaksTurn = (s.flightOf k).isSome := by
  rw [State.hostBreaksTurn, hq]

/-- A step with no act queued lets the operations in progress go on. -/
theorem step_of_queue_nil {s : State} (hq : s.queue = []) : step s = advance s := by
  rw [step, hq]

/-- A step that presents no command to an agent answers a next state. -/
theorem State.Inv.exists_step {s : State} (h : s.Inv)
    (hq : ∀ k c len rest, s.queue ≠ .issue k c len :: rest) : ∃ t, step s = .next t := by
  cases hs : s.queue with
  | nil => exact step_of_queue_nil hs ▸ h.exists_advance
  | cons e rest =>
    cases e with
    | command c len =>
      cases hd : decode c with
      | ok i => exact ⟨_, (step_command hs hd).trans (exec_eq i _)⟩
      | error r => exact ⟨_, step_reserved hs hd⟩
    | store a b => exact ⟨(s.withQueue rest).hostStore a b, by rw [step, hs]⟩
    | reset => exact ⟨(s.withQueue rest).resetByHost, by rw [step, hs]⟩
    | issue k c len => exact absurd hs (hq k c len rest)
    | access k a =>
      obtain ⟨t, run⟩ := State.Inv.exists_access (s := s.withQueue rest) h k a
      exact ⟨t, by rw [step, hs]; exact run⟩

theorem State.hostBreaksTurn_of_not_issue {s : State}
    (hq : ∀ k c len rest, s.queue ≠ .issue k c len :: rest) : s.hostBreaksTurn = false := by
  unfold State.hostBreaksTurn
  split
  · next hs => exact absurd hs (hq _ _ _ _)
  · rfl

/-- Settles O50: only a command to an agent can be refused, and it is where the agent is busy. -/
theorem stepStopsOnlyForBusyInstance : Obligations.StepStopsOnlyForBusyInstance := by
  intro s h
  by_cases hq : ∃ k c len rest, s.queue = .issue k c len :: rest
  · obtain ⟨k, c, len, rest, hq⟩ := hq
    rw [step_of_issue hq, State.hostBreaksTurn_of_issue hq]
    cases hf : s.flightOf k with
    | some f => exact issue_of_busy (s := s.withQueue rest) hf c len
    | none => exact exists_issue (s := s.withQueue rest) hf c len
  · have hq : ∀ k c len rest, s.queue ≠ .issue k c len :: rest := fun k c len rest hs =>
      hq ⟨k, c, len, rest, hs⟩
    rw [State.hostBreaksTurn_of_not_issue hq]
    exact h.exists_step hq

end Sys2Proof.Machine

end

/-! ### Completion, flags and suppression

Every instruction answers once, with the flags of 60_exceptions R112; suppressed it does nothing else,
and where `STRICT = 1` does not suppress it, it acts as with `STRICT = 0` (R113 to R116). -/

section

namespace Sys2Proof.Machine

open Sys2Proof.Claims

/-- Settles O34: every instruction answers with one response more, and so does a reserved word. -/
theorem everyCommandCompletes : Obligations.EveryCommandCompletes := by
  refine ⟨fun i s => ⟨_, _, exec_eq i s, s.after_responses i⟩, fun s c len rest hq => ?_⟩
  cases hd : decode c with
  | ok i => exact ⟨_, _, (step_command hq hd).trans (exec_eq i _), State.after_responses _ i⟩
  | error r => exact ⟨_, _, step_reserved hq hd, rfl⟩

theorem flags_ill (i : Instr) (len : Nat) : (flags i len).ill = false := by
  cases i <;> rfl

/-- A width is not both 0 and above 32 (60_exceptions R117). -/
theorem fieldFlags_wtl_wz_exclusive (o w len : Nat) :
    ¬ ((fieldFlags o w len).wtl = true ∧ (fieldFlags o w len).wz = true) := by
  simp only [fieldFlags, decide_eq_true_eq]
  omega

theorem flags_wtl_wz_exclusive (i : Instr) (len : Nat) :
    ¬ ((flags i len).wtl = true ∧ (flags i len).wz = true) := by
  cases i with
  | readL o w | readB o w => exact fieldFlags_wtl_wz_exclusive o w len
  | writeL o w v | writeB o w v => exact fieldFlags_wtl_wz_exclusive o w len
  | setbit o | setbitR o => exact fun h => Bool.false_ne_true h.1

/-- Settles O35: the response carries the flags of the operands and the length. -/
theorem flagsOfEveryInstruction : Obligations.FlagsOfEveryInstruction := by
  intro i s
  refine ⟨_, _, exec_eq i s, s.after_responses i, statusOf_eq i s.len,
    (statusOf_eq i s.len) ▸ flags_ill i s.len,
    (statusOf_eq i s.len) ▸ flags_wtl_wz_exclusive i s.len, ?_⟩
  cases i with
  | readL | readB => trivial
  | writeL | setbit | writeB | setbitR => rfl

/-! ### Suppression -/

/-- A SETBIT that is suppressed has its byte outside the buffer. -/
theorem outside_of_suppressed_setBit {strict : Bool} {o len : Nat}
    (h : suppressed strict (setBitStatus o len) = true) : ¬ o / 8 < len := fun inside =>
  Bool.false_ne_true ((suppressed_setBitStatus inside strict).symm.trans h)

/-- A suppressed instruction only answers (60_exceptions R113). -/
theorem State.after_of_suppressed {s : State} {i : Instr}
    (h : suppressed s.build.strict (statusOf i s.len) = true) :
    s.after i = s.respond 0 (statusOf i s.len) := by
  cases i with
  | readL o w | readB o w => exact if_pos h
  | writeL o w v | writeB o w v => exact if_pos h
  | setbit o | setbitR o => exact if_neg (outside_of_suppressed_setBit h)

/-- Settles O36: suppressed, an instruction plans no access and only answers; otherwise all its
addresses are planned. -/
theorem suppressedOperations : Obligations.SuppressedOperations := by
  intro i s
  rw [← suppressed_statusOf_iff, Bool.not_eq_true]
  refine ⟨fun h => ⟨accessPlan_of_suppressed h, ?_⟩, accessPlan_of_not_suppressed⟩
  rw [exec_eq, State.after_of_suppressed h, statusOf_eq]
  rfl

/-- Settles O37: `WZ` suppresses the READ and the WRITE, and is all their flags show but `OOB`. -/
theorem zeroWidthIsSuppressed : Obligations.ZeroWidthIsSuppressed := by
  intro e o v s
  have not_performed : ¬ performed s o 0 := fun h => h.1 rfl
  have no_access : accessPlan s.build.strict (read e o 0) s.len = [] := by
    cases e <;> exact ((suppressedOperations _ s).1 (.inl rfl)).1
  exact ⟨exec_read_of_not_performed not_performed e, exec_write_of_not_performed not_performed e v,
    no_access, (accessPlan_write_eq_read _ e o 0 v s.len).trans no_access⟩

/-- The same machine built with `STRICT = 0`. -/
def State.lenient (s : State) : State := { s with build := { s.build with strict := false } }

theorem State.afterRead_lenient {s : State} {o w : Nat}
    (h : suppressed s.build.strict (fieldStatus o w s.len) = false)
    (h' : suppressed false (fieldStatus o w s.len) = false) (e : Endian) :
    s.lenient.afterRead e o w = (s.afterRead e o w).lenient := by
  rw [State.afterRead, State.afterRead, h, if_neg Bool.false_ne_true]
  exact if_neg (Bool.eq_false_iff.1 h')

theorem State.afterWrite_lenient {s : State} {o w : Nat}
    (h : suppressed s.build.strict (fieldStatus o w s.len) = false)
    (h' : suppressed false (fieldStatus o w s.len) = false) (e : Endian) (v : Word) :
    s.lenient.afterWrite e o w v = (s.afterWrite e o w v).lenient := by
  rw [State.afterWrite, State.afterWrite, h, if_neg Bool.false_ne_true]
  exact if_neg (Bool.eq_false_iff.1 h')

theorem State.afterSetBit_lenient (s : State) (reversed : Bool) (o : Nat) :
    s.lenient.afterSetBit reversed o = (s.afterSetBit reversed o).lenient := by
  by_cases h : o / 8 < s.len
  · rw [State.afterSetBit, State.afterSetBit, if_pos h, if_pos (show o / 8 < s.lenient.len from h)]
    rfl
  · rw [State.afterSetBit, State.afterSetBit, if_neg h, if_neg (show ¬ o / 8 < s.lenient.len from h)]
    rfl

/-- An instruction that neither setting of `STRICT` suppresses acts alike under both. -/
theorem State.after_lenient {s : State} {i : Instr}
    (h : suppressed s.build.strict (statusOf i s.len) = false)
    (h' : suppressed false (statusOf i s.len) = false) : s.lenient.after i = (s.after i).lenient := by
  cases i with
  | readL o w | readB o w => exact State.afterRead_lenient h h' _
  | writeL o w v | writeB o w v => exact State.afterWrite_lenient h h' _ v
  | setbit o | setbitR o => exact s.afterSetBit_lenient _ o

/-- With no flag raised nothing is suppressed. -/
theorem not_suppressed_of_no_flag {i : Instr} {len : Nat} (oob : (flags i len).oob = false)
    (wtl : (flags i len).wtl = false) (wz : (flags i len).wz = false) (strict : Bool) :
    suppressed strict (statusOf i len) = false := by
  rw [statusOf_eq, suppressed, oob, wtl, wz, flags_ill]
  cases strict <;> rfl

/-- Settles O38: a flag suppresses; without one neither setting of `STRICT` does. -/
theorem strictVariant : Obligations.StrictVariant := by
  intro i s strict
  refine ⟨fun flag => ((suppressedOperations i s).1 (.inr ⟨strict, flag⟩)).2,
    fun oob wtl wz => ⟨s.after i, exec_eq i s, ?_⟩⟩
  have quiet := not_suppressed_of_no_flag oob wtl wz
  exact (exec_eq i s.lenient).trans
    (congrArg Host.Outcome.next (State.after_lenient (quiet _) (quiet false)))

end Sys2Proof.Machine

end

/-! ### Spans, frames and the scratch register -/

section

namespace Sys2Proof.Machine

open Sys2Proof.Claims

/-- Settles O41: the addresses are those of the span, whose laws bound them. -/
theorem spanOfEveryField : Obligations.SpanOfEveryField := by
  intro e o w len v
  refine ⟨byteBegin o len, spanLength o w len, ?_, ?_, rfl, rfl, spanLength_le o w len,
    span_inside o w len, fun h => ?_⟩
  · cases e <;> rfl
  · cases e <;> rfl
  · rw [← shiftAmount_eq]
    exact shift_add_width_le h

/-- A SETBIT leaves the scratch register as it is. -/
theorem State.afterSetBit_scr (s : State) (reversed : Bool) (o : Nat) :
    (s.afterSetBit reversed o).scr = s.scr := by
  rw [s.afterSetBit_eq]

/-- Settles O42: the fields by the frame of every instruction, the bytes by its access plan. -/
theorem instructionFrames : Obligations.InstructionFrames := by
  intro i s
  obtain ⟨hlen, hflights, hanswers, hqueue, hbuild⟩ := s.after_frame i
  refine ⟨s.after i, exec_eq i s, hlen, hflights, hanswers, hqueue, hbuild,
    fun a => s.read_after_of_not_mem i, ?_⟩
  cases i with
  | readL o w | readB o w => exact s.afterRead_mem _ o w
  | writeL | writeB => trivial
  | setbit o | setbitR o => exact s.afterSetBit_scr _ o

/-- Settles O46: after a READ the scratch register holds the number gathered; after a WRITE the bytes
scattered, which are those then read from the span. -/
theorem scratchHoldsTheSpan : Obligations.ScratchHoldsTheSpan := by
  intro e o w v s h
  have fit := length_spanBytes_le s.mem o w s.len
  refine ⟨⟨_, exec_read_of_performed h e, ?_⟩, _, exec_write_of_performed h e v, fun hwf => ?_⟩
  · simp only [State.respond_scr, State.withScr_scr]
    rw [scratchNumber_gatherScratch _ e fit, toNat_spanNumber_spanBytes]
  · have stored := s.spanBytes_writtenMem hwf e o w v
    rw [writeBytes, length_spanBytes] at stored
    exact stored.symm

/-! ### Reset, the idle block and commands in a row -/

/-- Settles O47: the values the state after reset is given. -/
theorem resetStateValues : Obligations.ResetStateValues := by
  refine ⟨rfl, rfl, rfl, rfl, rfl, rfl, rfl, rfl, fun hostBig => ?_⟩
  cases hostBig <;> decide

/-- Settles O51: the act is a reset of the state without it. -/
theorem hostResetEffect : Obligations.HostResetEffect := by
  intro s rest hq
  rw [step, hq]
  rfl

/-- Settles O52: idle with nothing in progress; otherwise the operation in front goes on; a store is a
write of memory. -/
theorem idleAndHostStore : Obligations.IdleAndHostStore := by
  refine ⟨fun s hq hf => ?_, fun s f fs a as got hq hf hp => ?_, fun s f fs a b cs hq hf hp => ?_,
    fun s a b rest hq => ?_⟩
  · rw [step_of_queue_nil hq, advance_of_none hf]
  · rw [step_of_queue_nil hq, advance, hf]
    simp only [hp]
  · rw [step_of_queue_nil hq, advance, hf]
    simp only [hp]
  · refine ⟨s.mem.write a.toNat b, ?_, fun c => Memory.read_write_other s.mem b,
      fun hwf => Memory.read_write_same hwf _ b⟩
    rw [step, hq]
    rfl

/-- Settles O53: the first command leaves the queue alone, so the second is next. -/
theorem commandsRunInOrder : Obligations.CommandsRunInOrder := by
  intro s c c' len len' rest i i' hq hd hd'
  have first := step_command hq hd
  rw [exec_eq] at first
  obtain ⟨-, -, -, hq', -⟩ :=
    ((s.withQueue (.command c' len' :: rest)).present len).after_frame i
  have second := step_command hq' hd'
  rw [exec_eq] at second
  exact ⟨_, _, exec_eq i _, exec_eq i' _, (core_run_succ 1 first).trans (core_run_succ 0 second)⟩

end Sys2Proof.Machine

end

/-! ### The bits a READ answers

Each bit of READ's value as a stream bit of the buffer: in range in either numbering, and for little
data with any tail (20_memory R24 to R26; 41_read R83 to R88). -/

section

namespace Sys2Proof.Machine

open Sys2Proof.Claims

/-- Settles O12: performed, the value is a remainder modulo `2^w'`; suppressed, it is 0. -/
theorem readIsRightJustified : Obligations.ReadIsRightJustified := by
  intro e o w s
  by_cases h : performed s o w
  · obtain ⟨scr, rdata, run, value⟩ := exec_read_answers_of_performed h e
    exact ⟨_, _, run, rfl, value ▸ Nat.mod_lt _ (Nat.two_pow_pos _)⟩
  · exact ⟨_, _, exec_read_of_not_performed h e, rfl, Nat.two_pow_pos _⟩

/-- A READ that is performed answers the value of its span. -/
theorem exec_read_responds {s : State} {o w : Nat} (h : performed s o w) (e : Endian) :
    ∃ t, exec (read e o w) s = .next t ∧ t.responses = s.responses ++ [{
      rdata := readValue s.build.hostBig e o w (spanBytes s.mem o w s.len)
      status := fieldStatus o w s.len }] := ⟨_, exec_read_of_performed h e, rfl⟩

/-- The places of a field's bits in its value, counted back, are those in the stream again. -/
theorem valueBit_valueBit (e : Endian) {w i : Nat} (h : i < clampWidth w) :
    valueBit e w (valueBit e w i) = i := by
  cases e with
  | little => rfl
  | big =>
    simp only [valueBit]
    omega

theorem valueBit_lt (e : Endian) {w i : Nat} (h : i < clampWidth w) :
    valueBit e w i < clampWidth w := by
  cases e with
  | little => exact h
  | big =>
    simp only [valueBit]
    omega

/-- A bit of little data lies in the byte and at the place its stream number says; beyond the buffer
the gathered number has zeros. -/
theorem getLsbD_spanNumber_little_field (m : Memory) {o w len i : Nat} (hi : i < clampWidth w) :
    (spanNumber .little (spanBytes m o w len)).getLsbD (shiftAmount .little o w + i) =
      (decide (o + i < 8 * len) && streamBit .little m (o + i)) := by
  have hw := clampWidth_le w
  simp only [shiftAmount]
  rw [getLsbD_spanNumber_spanBytes _ _ _ _ _ (by omega)]
  simp only [streamBit, physicalBit]
  have inside : (o % 8 + i) / 8 < spanLength o w len ↔ o + i < 8 * len := by
    unfold spanLength byteEnd byteBegin ceilBytes
    omega
  by_cases h : o + i < 8 * len
  · rw [byteBegin_inside (show o / 8 < len by omega),
      show o / 8 + (o % 8 + i) / 8 = (o + i) / 8 by omega, show (o % 8 + i) % 8 = (o + i) % 8 by omega]
    simp [inside, h]
  · simp [inside, h]

/-- A bit of big data in range lies in the byte and at the place its stream number says. -/
theorem getLsbD_spanNumber_big_field (m : Memory) {o w len i : Nat} (h : fieldInRange o w len)
    (hi : i < clampWidth w) :
    (spanNumber .big (spanBytes m o w len)).getLsbD (shiftAmount .big o w + i) =
      streamBit .big m (o + valueBit .big w i) := by
  have hw := clampWidth_le w
  have hs := shiftAmount_lt .big o w
  have in_span : (shiftAmount .big o w + i) / 8 < ceilBytes (o + clampWidth w) - o / 8 := by
    simp only [shiftAmount, ceilBytes]
    omega
  rw [getLsbD_spanNumber_spanBytes _ _ _ _ _ (by omega), byteBegin_inRange h, spanLength_inRange h,
    decide_eq_true in_span, Bool.true_and]
  simp only [streamBit, physicalBit, valueBit, shiftAmount, ceilBytes]
  congr 2 <;> omega

/-- In range a bit of READ's value is the stream bit it lays out (41_read R84). -/
theorem getLsbD_readValue_inRange (hostBig : Bool) (e : Endian) (m : Memory) {o w len : Nat}
    (h : fieldInRange o w len) (i : Nat) :
    (readValue hostBig e o w (spanBytes m o w len)).getLsbD i =
      (decide (i < clampWidth w) && streamBit e m (o + valueBit e w i)) := by
  rw [getLsbD_readValue hostBig e o w (length_spanBytes_le m o w len)]
  by_cases hi : i < clampWidth w
  · cases e with
    | little =>
      rw [getLsbD_spanNumber_little_field m hi, decide_eq_true (show o + i < 8 * len by omega)]
      rfl
    | big => rw [getLsbD_spanNumber_big_field m h hi]
  · rw [decide_eq_false hi]
    rfl

/-- With any tail a bit of READ.L's value is its stream bit inside the buffer and 0 beyond
(41_read R85). -/
theorem getLsbD_readValue_little (hostBig : Bool) (m : Memory) (o w len i : Nat) :
    (readValue hostBig .little o w (spanBytes m o w len)).getLsbD i =
      (decide (i < clampWidth w) && decide (o + i < 8 * len) && streamBit .little m (o + i)) := by
  rw [getLsbD_readValue hostBig .little o w (length_spanBytes_le m o w len), Bool.and_assoc]
  by_cases hi : i < clampWidth w
  · rw [getLsbD_spanNumber_little_field m hi]
  · rw [decide_eq_false hi, Bool.false_and, Bool.false_and]

/-- Settles O13: each bit by its place in the gathered number. -/
theorem readInRangeLayout : Obligations.ReadInRangeLayout := by
  intro e o w s h inRange
  obtain ⟨t, run, answer⟩ := exec_read_responds h e
  refine ⟨t, _, run, answer, fun i (hi : i < clampWidth w) => ?_⟩
  rw [getLsbD_readValue_inRange _ e s.mem inRange, valueBit_valueBit e hi,
    decide_eq_true (valueBit_lt e hi), Bool.true_and]

/-- Settles O14: bit by bit; in the extended buffer the bits that were missing are stream bits of the
zero bytes. -/
theorem readLittleClampedTail : Obligations.ReadLittleClampedTail := by
  intro o w s hw hs _ _
  obtain ⟨t, run, answer⟩ := exec_read_responds (performed_of_lenient hs hw o) .little
  refine ⟨t, _, run, answer, getLsbD_readValue_little _ s.mem o w s.len,
    fun s' hs' inRange same zero => ?_⟩
  obtain ⟨t', run', answer'⟩ := exec_read_responds (performed_of_lenient hs' hw o) .little
  refine ⟨t', _, run', answer', BitVec.eq_of_getLsbD_eq fun i _ => ?_⟩
  simp only [getLsbD_readValue_little]
  by_cases hi : i < clampWidth w
  · have inside' : o + i < 8 * s'.len := lt_of_lt_of_le (Nat.add_lt_add_left hi o) inRange
    by_cases inside : o + i < 8 * s.len
    · rw [streamBit, streamBit, same _ (by omega), decide_eq_true inside, decide_eq_true inside']
    · rw [streamBit, zero _ (by omega) (by omega), decide_eq_false inside]
      simp
  · rw [decide_eq_false hi, Bool.false_and, Bool.false_and, Bool.false_and, Bool.false_and]

/-- Zero digits after the big-endian digits of a number move it up by their places. -/
theorem sum_big_zero_extended (b : Nat → Nat) (n d : Nat) :
    ∑ i ∈ Finset.range (n + d), (if i < n then b i else 0) * 2 ^ (8 * (n + d - 1 - i)) =
      (∑ i ∈ Finset.range n, b i * 2 ^ (8 * (n - 1 - i))) * 2 ^ (8 * d) := by
  rw [Finset.sum_range_add, Finset.sum_eq_zero (s := Finset.range d) fun i _ => by simp, Nat.add_zero,
    Finset.sum_mul]
  refine Finset.sum_congr rfl fun i hi => ?_
  have hi := Finset.mem_range.1 hi
  rw [if_pos hi, mul_assoc, ← Nat.pow_add]
  congr 2
  omega

/-- With a clamped tail the gathered number of big data is that of the bytes present. -/
theorem spanSum_big_clampedTail (m : Memory) {o w len : Nat} (h : clampedTail o w len) :
    spanSum .big m o w len = ∑ i ∈ Finset.range (len - o / 8),
      (m.read (o / 8 + i)).toNat * 2 ^ (8 * (len - o / 8 - 1 - i)) := by
  have hcount : count o w len = len - o / 8 := spanLength_clampedTail h
  have hfirst : first o len = o / 8 := byteBegin_inside h.1
  rw [spanSum, hcount, hfirst]

/-- Settles O15: the bytes missing at the end are zero digits of the extended number, which the shift
by `8 d` takes off again. -/
theorem readBigClampedTail : Obligations.ReadBigClampedTail := by
  intro o w s hw hs inside past N d ext
  have hN : N = s.len - o / 8 + d := by
    change _ = _ + ((o + width w + 7) / 8 - o / 8 - (s.len - o / 8))
    change (o + width w + 7) / 8 - o / 8 = _
    omega
  have hd : 1 ≤ d := by
    change 1 ≤ (o + width w + 7) / 8 - o / 8 - (s.len - o / 8)
    omega
  have extended : ext = spanSum .big s.mem o w s.len * 2 ^ (8 * d) := by
    rw [spanSum_big_clampedTail s.mem ⟨inside, past⟩, ← sum_big_zero_extended, ← hN]
    refine Finset.sum_congr rfl fun i _ => ?_
    simp only [show o / 8 + i < s.len ↔ i < s.len - o / 8 by omega]
  obtain ⟨scr, rdata, run, value⟩ := exec_read_answers_of_performed (performed_of_lenient hs hw o) .big
  refine ⟨hd, _, _, run, rfl, ?_⟩
  rw [extended, Nat.mul_div_cancel _ (Nat.two_pow_pos _)]
  exact value

/-- In a buffer and its reverse a bit has the same place in the two numberings, counted from the two
ends. -/
theorem streamBit_reversed {m m' : Memory} {len b : Nat}
    (h : ∀ a < len, m'.read a = m.read (len - 1 - a)) (hb : b < 8 * len) :
    streamBit .little m' (8 * len - 1 - b) = streamBit .big m b := by
  simp only [streamBit, physicalBit]
  rw [h _ (by omega)]
  congr 2 <;> omega

/-- Settles O17: both values bit by bit, on mirrored stream bits. -/
theorem readEndianSymmetry : Obligations.ReadEndianSymmetry := by
  intro o w s s' h inRange hlen hstrict reversed
  have inRange' : fieldInRange (8 * s.len - o - width w) w s'.len := by
    change 8 * s.len - o - width w + width w ≤ 8 * s'.len
    omega
  have h' : performed s' (8 * s.len - o - width w) w := by
    obtain ⟨nonzero, narrow⟩ := h
    exact ⟨nonzero, fun strict => ⟨(narrow (hstrict ▸ strict)).1, inRange'⟩⟩
  obtain ⟨t, run, answer⟩ := exec_read_responds h .big
  obtain ⟨t', run', answer'⟩ := exec_read_responds h' .little
  refine ⟨t, t', _, _, run, answer, run', answer', BitVec.eq_of_getLsbD_eq fun i _ => ?_⟩
  rw [getLsbD_readValue_inRange _ .big s.mem inRange, getLsbD_readValue_inRange _ .little s'.mem inRange']
  by_cases hi : i < clampWidth w
  · have mirrored : 8 * s.len - o - width w + i = 8 * s.len - 1 - (o + (width w - 1 - i)) := by
      change i < width w at hi
      omega
    have hb : o + (width w - 1 - i) < 8 * s.len := by
      change i < width w at hi
      omega
    have same := streamBit_reversed reversed hb
    rw [← mirrored] at same
    exact congrArg (decide (i < clampWidth w) && ·) same
  · rw [decide_eq_false hi, Bool.false_and, Bool.false_and]

end Sys2Proof.Machine

end

/-! ### The bits a WRITE stores

The number of the bytes a WRITE stores is the merge, cut to the bytes there are; so reading the field
back gives the value, cut to the bits there are, and writing it again changes nothing (42_write R94 to
R99). -/

section

namespace Sys2Proof.Machine

open Sys2Proof.Claims

/-- The number of the bytes a WRITE stores is the merge in their bits. -/
theorem getLsbD_spanNumber_writeBytes (hostBig : Bool) (e : Endian) (o w : Nat) (v : Word)
    {bytes : List Byte} (hn : bytes.length ≤ 8) {j : Nat} (hj : j < 64) :
    (spanNumber e (writeBytes hostBig e o w v bytes)).getLsbD j =
      (decide (j < 8 * bytes.length) &&
        (mergeField e o w v (spanNumber e bytes)).getLsbD j) := by
  have hp : j % 8 < 8 := Nat.mod_lt j (by decide)
  rw [getLsbD_spanNumber _ _ hj, length_writeBytes, writeBytes_eq hostBig e o w v hn]
  by_cases h : j / 8 < bytes.length
  · rw [decide_eq_true (show j < 8 * bytes.length by omega), Bool.true_and]
    cases e with
    | little =>
      simp only
      rw [List.getD_eq_getElem _ _ (by simpa using h), List.getElem_map, List.getElem_range,
        getLsbD_spanByte _ _ _ _ hp]
      simp only
      rw [Nat.div_add_mod]
    | big =>
      simp only [if_pos h]
      rw [List.getD_eq_getElem _ _ (by simp; omega), List.getElem_map, List.getElem_range,
        getLsbD_spanByte _ _ _ _ hp]
      simp only
      rw [show bytes.length - 1 - (bytes.length - 1 - j / 8) = j / 8 by omega, Nat.div_add_mod]
  · rw [decide_eq_false (show ¬ j < 8 * bytes.length by omega), Bool.false_and]
    cases e with
    | little =>
      simp only
      rw [List.getD_eq_default _ _ (by simpa using h)]
      exact BitVec.getLsbD_zero
    | big => simp only [if_neg h]

/-! ### Reading back -/

/-- READ's value of the bytes a WRITE of the same field stores: the value's bits that are both in the
width and in the bytes there are (42_write R95). -/
theorem toNat_readValue_writeBytes (hostBig : Bool) (e : Endian) (o w : Nat) (v : Word)
    {bytes : List Byte} (hn : bytes.length ≤ 8) :
    (readValue hostBig e o w (writeBytes hostBig e o w v bytes)).toNat =
      v.toNat % 2 ^ min (clampWidth w) (8 * bytes.length - shiftAmount e o w) := by
  have hw := clampWidth_le w
  have hs := shiftAmount_lt e o w
  apply Nat.eq_of_testBit_eq
  intro i
  rw [Nat.testBit_mod_two_pow, BitVec.testBit_toNat, BitVec.testBit_toNat,
    getLsbD_readValue hostBig e o w (by rwa [length_writeBytes])]
  by_cases hi : i < clampWidth w
  · rw [getLsbD_spanNumber_writeBytes hostBig e o w v hn (by omega), getLsbD_mergeField,
      if_pos ⟨Nat.le_add_right _ i, Nat.add_lt_add_left hi _⟩, Nat.add_sub_cancel_left,
      decide_eq_true hi, Bool.true_and]
    congr 1
    exact decide_eq_decide.2 (by omega)
  · rw [decide_eq_false hi, decide_eq_false (by omega), Bool.false_and, Bool.false_and]

/-- A WRITE that is performed leaves its memory, and a state in which the field can be accessed
again. -/
theorem exec_write_frame {s : State} {o w : Nat} (h : performed s o w) (e : Endian) (v : Word) :
    ∃ t, exec (write e o w v) s = .next t ∧ t.mem = s.writtenMem e o w v ∧ t.len = s.len ∧
      t.build = s.build ∧ performed t o w :=
  ⟨_, exec_write_of_performed h e v, rfl, rfl, rfl, h⟩

/-- A READ that follows a WRITE of the same field answers the value's bits that are in the width and in
the bytes of the span. -/
theorem exec_read_after_write {s : State} (hwf : s.mem.wf = true) {o w : Nat} (h : performed s o w)
    (e : Endian) (v : Word) :
    ∃ t u r, exec (write e o w v) s = .next t ∧ exec (read e o w) t = .next u ∧
      u.responses = t.responses ++ [r] ∧
      r.rdata.toNat = v.toNat % 2 ^ min (width w) (8 * count o w s.len - shift e o w) := by
  obtain ⟨t, run, hmem, hlen, hbuild, h'⟩ := exec_write_frame h e v
  obtain ⟨u, run', answer⟩ := exec_read_responds h' e
  refine ⟨t, u, _, run, run', answer, ?_⟩
  simp only
  rw [hmem, hlen, hbuild, s.spanBytes_writtenMem hwf,
    toNat_readValue_writeBytes _ e o w v (length_spanBytes_le s.mem o w s.len), length_spanBytes,
    shiftAmount_eq]
  rfl

/-- Settles O22: in range the span holds the whole width. -/
theorem writeReadRoundTrip : Obligations.WriteReadRoundTrip := by
  intro e o w v s hwf h inRange
  have fits : shift e o w + width w ≤ 8 * count o w s.len := by
    rw [← shiftAmount_eq]
    exact shift_add_width_le inRange
  have cut : min (width w) (8 * count o w s.len - shift e o w) = width w := by omega
  exact cut ▸ exec_read_after_write hwf h e v

/-- Settles O23: for little data the bits of the field in the span are those before the end of the
buffer. -/
theorem writeReadLittleAnyTail : Obligations.WriteReadLittleAnyTail := by
  intro o w v s hwf h
  have cut : min (width w) (8 * count o w s.len - shift .little o w) =
      min (width w) (8 * s.len - o) := by
    simp only [shift, count, stop, first]
    omega
  exact cut ▸ exec_read_after_write hwf h .little v

/-- With a clamped tail the span is every byte from the field's first on. -/
theorem count_clampedTail {o w len : Nat} (h : clampedTail o w len) : count o w len = len - o / 8 :=
  spanLength_clampedTail h

/-- Settles O24: with a clamped tail the span holds fewer bits than the width. -/
theorem writeReadBigClampedTail : Obligations.WriteReadBigClampedTail := by
  intro o w v s hwf hw hs inside past
  have short : 8 * count o w s.len - shift .big o w < width w := by
    rw [count_clampedTail ⟨inside, past⟩]
    simp only [shift]
    omega
  obtain ⟨t, u, r, run, run', answer, value⟩ :=
    exec_read_after_write hwf (performed_of_lenient hs hw o) .big v
  refine ⟨short, t, u, r, run, run', answer, ?_⟩
  rw [value, min_eq_right short.le, Nat.mod_mod_of_dvd _ (Nat.pow_dvd_pow 2 short.le)]

/-! ### Neighbours -/

/-- The bit of the merge that a stream bit in the span takes lies in the window exactly if the stream
bit lies in the field, and at the same place (42_write R94, R96). -/
theorem mergeBit_window {e : Endian} {o w len b : Nat} (h : fieldInRange o w len ∨ e = .little)
    (after : byteBegin o len ≤ b / 8) (before : b / 8 < byteEnd o w len) :
    let j := mergeBit e (spanLength o w len) (b / 8 - byteBegin o len) (physicalBit e b)
    (shiftAmount e o w ≤ j ∧ j < shiftAmount e o w + clampWidth w ↔
        o ≤ b ∧ b < o + clampWidth w) ∧
      (o ≤ b → b < o + clampWidth w → j - shiftAmount e o w = valueBit e w (b - o)) := by
  have start : o / 8 < len := by
    have end_le := byteEnd_le o w len
    unfold byteBegin at after
    omega
  rw [byteBegin_inside start] at after ⊢
  cases e with
  | little =>
    simp only [mergeBit, physicalBit, shiftAmount, valueBit]
    omega
  | big =>
    have inRange := h.resolve_right nofun
    rw [spanLength_inRange inRange]
    have before : b / 8 < ceilBytes (o + clampWidth w) := by
      unfold byteEnd at before
      omega
    simp only [mergeBit, physicalBit, shiftAmount, valueBit, ceilBytes] at before ⊢
    omega

/-- A stream bit after a WRITE: the value's inside the field, as before elsewhere. -/
theorem State.streamBit_writtenMem (s : State) (hwf : s.mem.wf = true) {e : Endian} {o w b : Nat}
    (v : Word) (h : fieldInRange o w s.len ∨ e = .little) (hb : b < 8 * s.len) :
    streamBit e (s.writtenMem e o w v) b =
      if o ≤ b ∧ b < o + clampWidth w then v.getLsbD (valueBit e w (b - o))
      else streamBit e s.mem b := by
  by_cases inside : byteBegin o s.len ≤ b / 8 ∧ b / 8 < byteEnd o w s.len
  · obtain ⟨after, before⟩ := inside
    obtain ⟨window, place⟩ := mergeBit_window h after before
    have span_end := byteBegin_add_spanLength o w s.len
    have stored := s.getLsbD_read_writtenMem hwf e o w v
      (i := b / 8 - byteBegin o s.len) (by omega) (physicalBit_lt e b) rfl
    rw [Nat.add_sub_cancel' after] at stored
    rw [streamBit, stored]
    by_cases field : o ≤ b ∧ b < o + clampWidth w
    · rw [if_pos (window.2 field), if_pos field, place field.1 field.2]
    · rw [if_neg (mt window.1 field), if_neg field]
      rfl
  · rw [streamBit, s.read_writtenMem_outside e o w v (by omega), if_neg]
    · rfl
    · unfold byteBegin byteEnd ceilBytes at inside
      omega

/-- Settles O21: the stream bits of the buffer by the merge; the bytes beyond it are outside the
span. -/
theorem writePreservesNeighbours : Obligations.WritePreservesNeighbours := by
  intro e o w v s hwf h tail
  refine ⟨_, exec_write_of_performed h e v, fun b hb => s.streamBit_writtenMem hwf v tail hb,
    fun a ha => s.read_writtenMem_outside e o w v (.inr ?_)⟩
  exact (byteEnd_le o w s.len).trans ha

/-! ### The number of the bytes stored -/

/-- A number with the bits from `lo` to `hi - 1` replaced by those of another. -/
theorem testBit_replaced_window (S v : Nat) {lo hi : Nat} (h : lo ≤ hi) (j : Nat) :
    (S / 2 ^ hi * 2 ^ hi + v % 2 ^ (hi - lo) * 2 ^ lo + S % 2 ^ lo).testBit j =
      if lo ≤ j ∧ j < hi then v.testBit (j - lo) else S.testBit j := by
  have join : S / 2 ^ hi * 2 ^ hi + v % 2 ^ (hi - lo) * 2 ^ lo =
      2 ^ lo * (2 ^ (hi - lo) * (S / 2 ^ hi) + v % 2 ^ (hi - lo)) := by
    rw [Nat.mul_add, ← mul_assoc, ← Nat.pow_add, Nat.add_sub_cancel' h, Nat.mul_comm (S / 2 ^ hi),
      Nat.mul_comm (v % _)]
  rw [join, Nat.testBit_two_pow_mul_add _ (Nat.mod_lt _ (Nat.two_pow_pos lo)),
    Nat.testBit_two_pow_mul_add _ (Nat.mod_lt _ (Nat.two_pow_pos (hi - lo)))]
  by_cases below : j < lo
  · rw [if_pos below, if_neg (by omega), Nat.testBit_mod_two_pow, decide_eq_true below, Bool.true_and]
  · by_cases inside : j < hi
    · rw [if_neg below, if_pos (by omega), if_pos (by omega), Nat.testBit_mod_two_pow,
        decide_eq_true (by omega), Bool.true_and]
    · rw [if_neg below, if_neg (by omega), if_neg (by omega), Nat.testBit_div_two_pow]
      congr 1
      omega

theorem toNat_spanNumber_lt (e : Endian) {bytes : List Byte} (h : bytes.length ≤ 8) :
    (spanNumber e bytes).toNat < 2 ^ (8 * bytes.length) := by
  cases e with
  | little => exact toNat_littleNumber_lt bytes h
  | big =>
    have reversed := toNat_littleNumber_lt bytes.reverse (by rwa [List.length_reverse])
    rwa [List.length_reverse] at reversed

/-- The number of the bytes a WRITE stores: in that of the bytes before, the window, as far as there
are bytes, is replaced by the low bits of the value (42_write R97). -/
theorem toNat_spanNumber_writeBytes (hostBig : Bool) (e : Endian) (o w : Nat) (v : Word)
    {bytes : List Byte} (hn : bytes.length ≤ 8) {lo hi S : Nat} (hlo : lo = shiftAmount e o w)
    (hhi : hi = min (shiftAmount e o w + clampWidth w) (8 * bytes.length)) (h : lo ≤ hi)
    (hS : S = (spanNumber e bytes).toNat) :
    (spanNumber e (writeBytes hostBig e o w v bytes)).toNat =
      S / 2 ^ hi * 2 ^ hi + v.toNat % 2 ^ (hi - lo) * 2 ^ lo + S % 2 ^ lo := by
  apply Nat.eq_of_testBit_eq
  intro j
  rw [testBit_replaced_window _ _ h, BitVec.testBit_toNat]
  by_cases hj : j < 8 * bytes.length
  · rw [getLsbD_spanNumber_writeBytes hostBig e o w v hn (by omega), getLsbD_mergeField,
      decide_eq_true hj, Bool.true_and, hlo, hS]
    have window : j < hi ↔ j < shiftAmount e o w + clampWidth w := by omega
    simp only [window, BitVec.testBit_toNat]
  · have high : 2 ^ (8 * bytes.length) ≤ 2 ^ j := Nat.pow_le_pow_right (by decide) (by omega)
    have stored := toNat_spanNumber_lt e (bytes := writeBytes hostBig e o w v bytes)
      (by rwa [length_writeBytes])
    rw [length_writeBytes] at stored
    rw [if_neg (by omega), hS, Nat.testBit_lt_two_pow ((toNat_spanNumber_lt e hn).trans_le high),
      ← BitVec.testBit_toNat, Nat.testBit_lt_two_pow (stored.trans_le high)]

/-- Settles O25: with a clamped tail the span is the bytes present, from the field's first on. -/
theorem writeBigClampedTail : Obligations.WriteBigClampedTail := by
  intro o w v s hwf hw hs inside past
  have tail : clampedTail o w s.len := ⟨inside, past⟩
  have fit := length_spanBytes_le s.mem o w s.len
  have hlen : (spanBytes s.mem o w s.len).length = s.len - o / 8 := by
    rw [length_spanBytes, spanLength_clampedTail tail]
  refine ⟨_, exec_write_of_performed (performed_of_lenient hs hw o) .big v, ?_, fun a ha => ?_⟩
  · simp only [State.respond_mem, State.withScr_mem]
    rw [← spanSum_big_clampedTail _ tail, ← spanSum_big_clampedTail _ tail,
      ← toNat_spanNumber_spanBytes, ← toNat_spanNumber_spanBytes, s.spanBytes_writtenMem hwf]
    refine toNat_spanNumber_writeBytes _ .big o w v fit (shiftAmount_eq .big o w).symm ?_ ?_ rfl
    · rw [hlen, shiftAmount_eq]
      rfl
    · simp only [shift]
      omega
  · refine s.read_writtenMem_outside .big o w v (ha.imp ?_ (byteEnd_le o w s.len).trans)
    rw [byteBegin_inside inside]
    exact id

/-! ### Writing twice -/

/-- The merge of a value into bytes that hold it already leaves them. -/
theorem writeBytes_writeBytes (hostBig : Bool) (e : Endian) (o w : Nat) (v : Word)
    {bytes : List Byte} (hn : bytes.length ≤ 8) :
    writeBytes hostBig e o w v (writeBytes hostBig e o w v bytes) =
      writeBytes hostBig e o w v bytes := by
  have again := writeBytes_eq hostBig e o w v (bytes := writeBytes hostBig e o w v bytes)
    (by rwa [length_writeBytes])
  rw [again, length_writeBytes]
  refine Eq.trans (List.map_congr_left fun i hi => ?_) (writeBytes_eq hostBig e o w v hn).symm
  have hi : i < bytes.length := List.mem_range.1 hi
  have bit (j : Nat) (hj : j < 8 * bytes.length) :
      (mergeField e o w v (spanNumber e (writeBytes hostBig e o w v bytes))).getLsbD j =
        (mergeField e o w v (spanNumber e bytes)).getLsbD j := by
    rw [getLsbD_mergeField, getLsbD_spanNumber_writeBytes hostBig e o w v hn (by omega),
      decide_eq_true hj, Bool.true_and, getLsbD_mergeField]
    split <;> rfl
  apply BitVec.eq_of_getLsbD_eq
  intro p hp
  rw [getLsbD_spanByte _ _ _ _ hp, getLsbD_spanByte _ _ _ _ hp]
  cases e with
  | little => exact bit _ (by omega)
  | big => exact bit _ (by omega)

/-- Writing the bytes a memory holds leaves it. -/
theorem Memory.writeFrom_readFrom {m : Memory} (h : m.wf = true) (a n : Nat) :
    m.writeFrom a (m.readFrom a n) = m := by
  refine Memory.ext_of_wf (Memory.writeFrom_wf h a _) h fun c => ?_
  rw [Memory.read_writeFrom h, Memory.length_readFrom]
  split
  · next inside =>
    obtain ⟨after, before⟩ := inside
    rw [Memory.getD_readFrom m (by omega), Nat.add_sub_cancel' after]
  · rfl

/-- A WRITE that finds its value in the buffer leaves it there. -/
theorem State.writtenMem_again {s t : State} (hwf : s.mem.wf = true) {e : Endian} {o w : Nat}
    {v : Word} (hmem : t.mem = s.writtenMem e o w v) (hlen : t.len = s.len)
    (hbuild : t.build = s.build) : t.writtenMem e o w v = t.mem := by
  have held := s.spanBytes_writtenMem hwf e o w v
  have same : writeBytes t.build.hostBig e o w v (spanBytes t.mem o w t.len) =
      spanBytes t.mem o w t.len := by
    rw [hmem, hlen, hbuild, held, writeBytes_writeBytes _ e o w v (length_spanBytes_le s.mem o w s.len)]
  rw [State.writtenMem, same, spanBytes_eq_readFrom, Memory.writeFrom_readFrom]
  exact hmem ▸ s.writtenMem_wf hwf e o w v

/-- Settles O27: performed, the second WRITE finds its value there; suppressed, neither does
anything. -/
theorem writeIdempotent : Obligations.WriteIdempotent := by
  intro e o w v s hwf
  by_cases h : performed s o w
  · obtain ⟨t, run, hmem, hlen, hbuild, h'⟩ := exec_write_frame h e v
    obtain ⟨u, run', hmem', -⟩ := exec_write_frame h' e v
    exact ⟨t, u, run, run', hmem'.trans (State.writtenMem_again hwf hmem hlen hbuild)⟩
  · refine ⟨_, _, exec_write_of_not_performed h e v, exec_write_of_not_performed ?_ e v, rfl⟩
    exact h

end Sys2Proof.Machine

end

/-! ### The bit a SETBIT sets

Every physical bit after a SETBIT, reading the bit back, and the SETBIT as a WRITE of 1 to a field of
width 1 (43_setbit section 2, R104 to R106). -/

section

namespace Sys2Proof.Machine

open Sys2Proof.Claims

theorem getLsbD_one_shiftLeft {p : Nat} (hp : p < 8) (q : Nat) :
    (1#8 <<< q).getLsbD p = decide (p = q) := by
  rw [BitVec.getLsbD_shiftLeft, BitVec.getLsbD_one, decide_eq_true hp, Bool.true_and]
  by_cases h : p < q
  · simp [h, h.ne]
  · simp [h, show p - q = 0 ↔ p = q by omega]

/-- The byte SETBIT writes back has its own bit set and the others as before (43_setbit R100). -/
theorem getLsbD_setBitByte (e : Endian) (o : Nat) (b : Byte) {p : Nat} (hp : p < 8) :
    (setBitByte (decide (e = .big)) o b).getLsbD p =
      (b.getLsbD p || decide (p = physicalBit e o)) := by
  rw [setBitByte, setBitPosition_eq_physicalBit, BitVec.getLsbD_or, getLsbD_one_shiftLeft hp]

/-- Every physical bit after a SETBIT. -/
theorem State.getLsbD_read_afterSetBit (s : State) (hwf : s.mem.wf = true) (e : Endian) (o a : Nat)
    {p : Nat} (hp : p < 8) :
    ((s.afterSetBit (decide (e = .big)) o).mem.read a).getLsbD p =
      ((s.mem.read a).getLsbD p || decide (a = o / 8 ∧ a < s.len ∧ p = physicalBit e o)) := by
  by_cases ha : a = o / 8
  · subst ha
    by_cases inside : o / 8 < s.len
    · rw [State.read_afterSetBit_inside inside hwf, getLsbD_setBitByte e o _ hp]
      simp [inside]
    · rw [State.afterSetBit_mem_outside (Nat.not_lt.1 inside)]
      simp [inside]
  · rw [State.read_afterSetBit_other s _ ha]
    simp [ha]

theorem State.afterSetBit_len (s : State) (reversed : Bool) (o : Nat) :
    (s.afterSetBit reversed o).len = s.len := by
  rw [s.afterSetBit_eq]

theorem State.afterSetBit_wf {s : State} (hwf : s.mem.wf = true) (reversed : Bool) (o : Nat) :
    (s.afterSetBit reversed o).mem.wf = true := by
  cases reversed with
  | false => exact s.after_wf (.setbit o) hwf
  | true => exact s.after_wf (.setbitR o) hwf

/-- A SETBIT that finds its bit set leaves the memory as it is. -/
theorem State.afterSetBit_afterSetBit_mem {s : State} (hwf : s.mem.wf = true) (e : Endian) (o : Nat) :
    ((s.afterSetBit (decide (e = .big)) o).afterSetBit (decide (e = .big)) o).mem =
      (s.afterSetBit (decide (e = .big)) o).mem := by
  have hwf' := State.afterSetBit_wf hwf (decide (e = .big)) o
  refine Memory.ext_of_wf (State.afterSetBit_wf hwf' _ o) hwf' fun a => ?_
  apply BitVec.eq_of_getLsbD_eq
  intro p hp
  rw [State.getLsbD_read_afterSetBit _ hwf' e o a hp, s.afterSetBit_len,
    s.getLsbD_read_afterSetBit hwf e o a hp, Bool.or_assoc, Bool.or_self]

/-- Settles O31: each bit stays or is the one set, and so a second SETBIT finds it set. -/
theorem setBitNeverClears : Obligations.SetBitNeverClears := fun e o s hwf =>
  ⟨_, _, exec_setBit e o s, exec_setBit e o _, State.afterSetBit_afterSetBit_mem hwf e o,
    fun a _ hp => s.getLsbD_read_afterSetBit hwf e o a hp⟩

/-! ### Reading one bit -/

/-- A READ of one bit that is set answers 1. -/
theorem exec_read_set_bit (e : Endian) {o : Nat} {s : State} (inside : o / 8 < s.len)
    (set : streamBit e s.mem o = true) :
    ∃ u r, exec (read e o 1) s = .next u ∧ u.responses = s.responses ++ [r] ∧ r.rdata = 1 := by
  have inRange : o + width 1 ≤ 8 * s.len := by
    change o + 1 ≤ _
    omega
  have h : performed s o 1 := ⟨Nat.one_ne_zero, fun _ => ⟨by decide, inRange⟩⟩
  obtain ⟨u, run, answer⟩ := exec_read_responds h e
  refine ⟨u, _, run, answer, BitVec.eq_of_getLsbD_eq fun i hi => ?_⟩
  rw [getLsbD_readValue_inRange _ e s.mem inRange]
  cases i with
  | zero =>
    have first_bit : valueBit e 1 0 = 0 := by cases e <;> rfl
    rw [first_bit, Nat.add_zero, set]
    rfl
  | succ i =>
    have beyond : ¬ i + 1 < clampWidth 1 := Nat.not_lt.2 (Nat.le_add_left 1 i)
    rw [decide_eq_false beyond, Bool.false_and]
    exact (BitVec.getLsbD_one.trans (by simp)).symm

/-- A bit in the two numberings of its byte. -/
theorem streamBit_big_mirrored (m : Memory) (o : Nat) :
    streamBit .big m (8 * (o / 8) + 7 - o % 8) = streamBit .little m o := by
  simp only [streamBit, physicalBit]
  congr 2 <;> omega

/-- Settles O33: the bit is set in its own numbering, and for little data the mirrored number names the
same bit in the other. -/
theorem setBitReadBack : Obligations.SetBitReadBack := by
  intro e o s hwf inside
  obtain ⟨m, run, -, -, sets⟩ := exec_setBit_sets_bit e o s
  obtain ⟨-, set⟩ := sets inside hwf
  obtain ⟨u, r, run', answer, one⟩ := exec_read_set_bit e (s := { s with
    mem := m, responses := answered s 0 (bitFlags o s.len) }) inside set
  refine ⟨_, u, r, run, run', answer, one, fun little => ?_⟩
  subst little
  refine exec_read_set_bit .big ?_ ((streamBit_big_mirrored m o).trans set)
  change (8 * (o / 8) + 7 - o % 8) / 8 < s.len
  omega

/-! ### A SETBIT as a WRITE -/

theorem fieldStatus_one (o len : Nat) : fieldStatus o 1 len = setBitStatus o len := by
  have oob : ceilBytes (o + clampWidth 1) > len ↔ o / 8 ≥ len := by
    change (o + 1 + 7) / 8 > len ↔ _
    omega
  simp only [fieldStatus, setBitStatus, oob]
  rfl

theorem spanLength_one {o len : Nat} (inside : o / 8 < len) : spanLength o 1 len = 1 := by
  change min ((o + 1 + 7) / 8) len - min (o / 8) len = 1
  omega

theorem fieldAddresses_one (o len : Nat) : fieldAddresses o 1 len = setBitAddresses o len := by
  by_cases inside : o / 8 < len
  · rw [fieldAddresses, spanLength_one inside, byteBegin_inside inside, setBitAddresses,
      if_pos inside]
    rfl
  · rw [fieldAddresses_beyond 1 (Nat.not_lt.1 inside), setBitAddresses, if_neg inside]

/-- A WRITE of one bit plans the accesses of the SETBIT. -/
theorem accessPlan_write_one (strict : Bool) (e : Endian) (o len : Nat) :
    accessPlan strict (write e o 1 1) len = accessPlan strict (setBit e o) len := by
  have plan : accessPlan strict (.writeL o 1 1) len = accessPlan strict (.setbit o) len := by
    simp only [accessPlan, statusOf, addressesOf, fieldStatus_one, fieldAddresses_one]
    rfl
  cases e <;> exact plan

theorem shiftAmount_one (e : Endian) (o : Nat) : shiftAmount e o 1 = physicalBit e o := by
  cases e with
  | little => rfl
  | big =>
    change (8 - (o + 1) % 8) % 8 = 7 - o % 8
    omega

/-- A WRITE of 1 to one bit stores the byte that SETBIT does. -/
theorem writeBytes_one (hostBig : Bool) (e : Endian) (o : Nat) (b : Byte) :
    writeBytes hostBig e o 1 1 [b] = [setBitByte (decide (e = .big)) o b] := by
  rw [writeBytes_eq hostBig e o 1 1 (by simp)]
  refine congrArg (fun x => [x]) (BitVec.eq_of_getLsbD_eq fun p hp => ?_)
  have merged : (spanByte e 1 (mergeField e o 1 1 (spanNumber e [b])) 0).getLsbD p =
      (mergeField e o 1 1 (spanNumber e [b])).getLsbD p := by
    rw [getLsbD_spanByte _ _ _ _ hp]
    cases e <;> simp
  have number : (spanNumber e [b]).getLsbD p = b.getLsbD p := by
    rw [getLsbD_spanNumber e [b] (by omega), Nat.div_eq_of_lt hp, Nat.mod_eq_of_lt hp]
    cases e <;> rfl
  rw [List.length_singleton, merged, getLsbD_mergeField, number, shiftAmount_one,
    getLsbD_setBitByte e o b hp]
  by_cases h : p = physicalBit e o
  · subst h
    simp [clampWidth, Config.fieldMax]
  · rw [if_neg (by simp only [clampWidth, Config.fieldMax]; omega)]
    simp [h]

/-- The one-bit WRITE leaves the memory that the SETBIT leaves. -/
theorem State.afterWrite_one_mem (s : State) (e : Endian) (o : Nat) :
    (s.afterWrite e o 1 1).mem = (s.afterSetBit (decide (e = .big)) o).mem := by
  by_cases inside : o / 8 < s.len
  · have not_suppressed : suppressed s.build.strict (fieldStatus o 1 s.len) = false := by
      rw [fieldStatus_one]
      exact suppressed_setBitStatus inside _
    have byte : spanBytes s.mem o 1 s.len = [s.mem.read (o / 8)] := by
      rw [← map_read_fieldAddresses, fieldAddresses_one, setBitAddresses, if_pos inside]
      rfl
    rw [State.afterWrite, not_suppressed, if_neg Bool.false_ne_true, State.afterSetBit,
      if_pos inside]
    simp only [State.respond_mem, State.withScr_mem]
    rw [State.writtenMem, byte, writeBytes_one, byteBegin_inside inside]
    rfl
  · have outside := Nat.not_lt.1 inside
    rw [s.afterWrite_mem_beyond e 1 1 outside, State.afterSetBit_mem_outside outside]

/-- Settles O32: memory, flags and accesses of the two are the same. -/
theorem setBitAgreesWithWrite : Obligations.SetBitAgreesWithWrite := by
  intro e o s
  refine ⟨_, _, exec_setBit e o s, exec_write e o 1 1 s, (s.afterWrite_one_mem e o).symm, ?_,
    (accessPlan_write_one _ e o s.len).symm⟩
  rw [s.afterSetBit_responses, s.afterWrite_responses, fieldStatus_one]

end Sys2Proof.Machine

end

/-! ### Starting an operation, and one access of it

What giving a command to a free agent and one byte access of an agent do to the state: the
operation of that agent, its answer, and at most the byte named (20_memory sections 3 and 4). -/

section

namespace Sys2Proof.Machine

open Sys2Proof.Claims

/-- The state with one operation more in progress. -/
def State.withFlight (s : State) (f : Flight) : State := { s with inFlight := f :: s.inFlight }

@[simp] theorem State.flightOf_withFlight (s : State) (f : Flight) :
    (s.withFlight f).flightOf f.inst = some f := State.flightOf_front rfl

/-- A free agent has no operation to drop. -/
theorem State.dropFlight_of_idle {s : State} {k : Nat} (h : s.flightOf k = none) :
    s.dropFlight k = s := by
  rw [State.dropFlight, State.filter_inFlight h]

/-- Dropping an agent's operation drops the one that was added last. -/
theorem State.dropFlight_withFlight (s : State) {g : Flight} {k : Nat} (hg : g.inst = k) :
    (s.withFlight g).dropFlight k = s.dropFlight k := by
  simp [State.dropFlight, State.withFlight, hg]

theorem State.putFlight_of_idle {s : State} {f : Flight} (h : s.flightOf f.inst = none) :
    s.putFlight f = s.withFlight f := by
  rw [State.putFlight, State.dropFlight_of_idle h]
  rfl

theorem State.finish_of_idle {s : State} {f : Flight} (h : s.flightOf f.inst = none) (r : Word) :
    s.finish f r = s.answer f.inst r (statusOf f.op f.len) := by
  rw [State.finish, State.dropFlight_of_idle h]

/-- An operation that has read no byte has the result 0. -/
theorem resultOf_nil (hostBig : Bool) (i : Instr) : resultOf hostBig i [] = 0 := by
  cases i with
  | readL o w | readB o w => exact readValue_nil hostBig _ o w
  | writeL | setbit | writeB | setbitR => rfl

/-- The operation of an agent that has just been given a command. -/
def newFlight (k : Nat) (i : Instr) (len : Nat) (left : List Nat) : Flight :=
  { inst := k, op := i, len := len, phase := .reading left [] }

/-- A free agent given reads to make has them all in progress. -/
theorem settleReads_newFlight {s : State} {k : Nat} (h : s.flightOf k = none) (i : Instr)
    (len : Nat) (left₀ : List Nat) {left : List Nat} (hleft : left ≠ []) :
    settleReads s (newFlight k i len left₀) left [] = s.withFlight (newFlight k i len left) := by
  obtain ⟨a, as, rfl⟩ := List.exists_cons_of_ne_nil hleft
  exact State.putFlight_of_idle (f := newFlight k i len (a :: as)) h

/-- An operation with nothing to access is answered at once. -/
theorem issue_of_no_access {k : Nat} {c : Descriptor} {len : BitVec 32} {s : State} {i : Instr}
    (h : s.flightOf k = none) (hd : decode c = .ok i)
    (hp : accessPlan s.build.strict i len.toNat = []) :
    issue k c len s = .next (s.answer k 0 (statusOf i len.toNat)) := by
  have finished := State.finish_of_idle (f := newFlight k i len.toNat []) h 0
  rw [issue, h, hd]
  dsimp only
  by_cases hs : suppressed s.build.strict (statusOf i len.toNat) = true
  · rw [if_pos hs]
    exact congrArg Host.Outcome.next finished
  · rw [accessPlan, if_neg hs] at hp
    rw [if_neg hs, hp, settleReads]
    simp only [pendingWrites, bytesGot, hp, List.map_nil, List.zip_nil_left, resultOf_nil,
      settleWrites]
    exact congrArg Host.Outcome.next finished

/-- An operation with accesses to make is in progress, all of its plan to read. -/
theorem issue_of_access {k : Nat} {c : Descriptor} {len : BitVec 32} {s : State} {i : Instr}
    (h : s.flightOf k = none) (hd : decode c = .ok i)
    (hp : accessPlan s.build.strict i len.toNat ≠ []) :
    issue k c len s = .next
      (s.withFlight (newFlight k i len.toNat (accessPlan s.build.strict i len.toNat))) := by
  rw [issue, h, hd]
  dsimp only
  by_cases hs : suppressed s.build.strict (statusOf i len.toNat) = true
  · exact absurd (accessPlan_of_suppressed hs) hp
  · have plan := accessPlan_of_not_suppressed (Bool.not_eq_true _ ▸ hs)
    rw [plan] at hp ⊢
    rw [if_neg hs]
    exact congrArg Host.Outcome.next (settleReads_newFlight h i len.toNat [] hp)

/-- Settles O54: a reserved word and an operation without accesses are answered at once, an operation
with accesses starts. -/
theorem instanceStartsWithItsPlan : Obligations.InstanceStartsWithItsPlan := by
  refine ⟨fun k c len s h hres => ?_, fun k c len s i h hd => ⟨fun hp => ?_, issue_of_access h hd⟩⟩
  · obtain ⟨r, hd⟩ := decode_of_reserved hres
    rw [issue, h, hd]
    rfl
  · rw [issue_of_no_access h hd hp, statusOf_eq]
    rfl

/-! ### The frame of an access -/

/-- Settling the writes of an operation leaves the other agents' operations. -/
theorem mem_settleWrites_inFlight {g f : Flight} (h : g.inst ≠ f.inst) (s : State) (r : Word)
    (left : List Host.Cell) : g ∈ (settleWrites s f r left).inFlight ↔ g ∈ s.inFlight := by
  have other (ph : Phase) : g ≠ { f with phase := ph } := fun eq => h (eq ▸ rfl)
  rw [settleWrites_inFlight]
  split <;> simp [h, other]

/-- Settling the reads of an operation leaves the other agents' operations. -/
theorem mem_settleReads_inFlight {g f : Flight} (h : g.inst ≠ f.inst) (s : State) (left : List Nat)
    (got : List Host.Cell) : g ∈ (settleReads s f left got).inFlight ↔ g ∈ s.inFlight := by
  have other (ph : Phase) : g ≠ { f with phase := ph } := fun eq => h (eq ▸ rfl)
  cases left with
  | nil => exact mem_settleWrites_inFlight h s _ _
  | cons a as => simp [settleReads_inFlight, h, other]

/-- Settles O55: an access settles reads, or writes its byte and settles writes. -/
theorem instanceAccessFrame : Obligations.InstanceAccessFrame := by
  intro k a s t hx
  obtain run | ⟨f, hf, ⟨left, got, hp, -, -, run⟩ | ⟨left, b, hp, -, -, run⟩ | ⟨-, run, -⟩⟩ :=
    access_cases k a s <;> cases run.symm.trans hx
  case inl =>
    exact ⟨fun _ _ => rfl, rfl, rfl, rfl, rfl, rfl, fun _ _ => Iff.rfl, fun _ _ _ _ _ => rfl⟩
  case inr.inl =>
    obtain ⟨-, rfl⟩ := State.flightOf_some hf
    obtain ⟨hmem, hlen, hscr, hresponses, hqueue, hbuild⟩ :=
      settleReads_frame s f (left.erase a) ((a, s.mem.read a) :: got)
    exact ⟨fun c _ => by rw [hmem], hlen, hscr, hresponses, hqueue, hbuild,
      fun g hg => mem_settleReads_inFlight hg s _ _, fun _ _ _ _ _ => hmem⟩
  case inr.inr.inl =>
    obtain ⟨-, rfl⟩ := State.flightOf_some hf
    obtain ⟨hmem, hlen, hscr, hresponses, hqueue, hbuild⟩ :=
      settleWrites_frame { s with mem := s.mem.write a b } f 0
        (left.filter fun d => decide (d.1 ≠ a))
    refine ⟨fun c hc => ?_, hlen, hscr, hresponses, hqueue, hbuild,
      fun g hg => mem_settleWrites_inFlight hg _ _ _, fun f' hf' left' got' hp' => ?_⟩
    · rw [hmem]
      exact Memory.read_write_other s.mem b hc
    · cases hf.symm.trans hf'
      cases hp.symm.trans hp'

/-! ### Starts and reads keep the memory -/

theorem issue_keeps_mem {k : Nat} {c : Descriptor} {len : BitVec 32} {s t : State}
    (hx : issue k c len s = .next t) : t.mem = s.mem := by
  obtain ⟨-, run⟩ | ⟨-, ⟨-, run⟩ | ⟨i, -, ⟨-, run⟩ | ⟨-, run⟩⟩⟩ := issue_cases k c len s <;>
    cases run.symm.trans hx
  case inr.inl => rfl
  case inr.inr.inl => rfl
  case inr.inr.inr => exact (settleReads_frame s _ _ []).1

/-- Only a free agent takes a command. -/
theorem idle_of_issue {k : Nat} {c : Descriptor} {len : BitVec 32} {s t : State}
    (hx : issue k c len s = .next t) : s.flightOf k = none := by
  cases hf : s.flightOf k with
  | none => rfl
  | some f => cases (issue_of_busy hf c len).symm.trans hx

/-- A command that was taken is over, or in progress with its plan to read. -/
theorem flightOf_of_issue {k : Nat} {c : Descriptor} {len : BitVec 32} {s t : State} {i : Instr}
    (hd : decode c = .ok i) (hx : issue k c len s = .next t) :
    t.flightOf k = none ∨ ∃ left, t.flightOf k = some (newFlight k i len.toNat left) := by
  have idle := idle_of_issue hx
  by_cases hp : accessPlan s.build.strict i len.toNat = []
  · cases (issue_of_no_access idle hd hp).symm.trans hx
    exact .inl idle
  · cases (issue_of_access idle hd hp).symm.trans hx
    exact .inr ⟨_, State.flightOf_withFlight s _⟩

/-- A READ has nothing to write (20_memory R30). -/
theorem pendingWrites_of_read {f : Flight} {e : Endian} {o w : Nat} (h : f.op = read e o w)
    (hostBig : Bool) (got : List Host.Cell) : pendingWrites hostBig f got = [] := by
  rw [pendingWrites, h]
  cases e <;> exact List.zip_nil_right

/-- A READ whose reads are settled is reading or over. -/
theorem flightOf_settleReads_of_read {f : Flight} {e : Endian} {o w : Nat} (h : f.op = read e o w)
    (s : State) (left : List Nat) (got : List Host.Cell) :
    (settleReads s f left got).flightOf f.inst = none ∨ ∃ left' got',
      (settleReads s f left got).flightOf f.inst =
        some { f with phase := .reading left' got' } := by
  cases left with
  | nil =>
    rw [settleReads, pendingWrites_of_read h]
    exact .inl (s.flightOf_finish f _)
  | cons a as => exact .inr ⟨a :: as, got, s.flightOf_putFlight { f with phase := .reading (a :: as) got }⟩

/-- An access of a READ that is reading keeps the memory and leaves the READ reading or over. -/
theorem access_of_read {k a : Nat} {e : Endian} {o w : Nat} {s t : State} {f : Flight}
    {left : List Nat} {got : List Host.Cell} (hf : s.flightOf k = some f) (hop : f.op = read e o w)
    (hp : f.phase = .reading left got) (hx : access k a s = .next t) :
    t.mem = s.mem ∧ (t.flightOf k = none ∨ ∃ left' got',
      t.flightOf k = some { f with phase := .reading left' got' }) := by
  obtain run | ⟨f', hf', ⟨left', got', -, -, -, run⟩ | ⟨left', b, hp', -, -, run⟩ | ⟨-, run, -⟩⟩ :=
    access_cases k a s <;> cases run.symm.trans hx
  case inl =>
    refine ⟨rfl, .inr ⟨left, got, ?_⟩⟩
    rw [hf, ← hp]
  case inr.inl =>
    cases hf.symm.trans hf'
    obtain ⟨-, rfl⟩ := State.flightOf_some hf
    exact ⟨(settleReads_frame s f _ _).1, flightOf_settleReads_of_read hop s _ _⟩
  case inr.inr.inl =>
    cases hf.symm.trans hf'
    cases hp.symm.trans hp'

theorem accesses_cons {k a : Nat} {as : List Nat} {s t : State}
    (h : accesses k (a :: as) s = .next t) :
    ∃ u, access k a s = .next u ∧ accesses k as u = .next t := by
  rw [accesses] at h
  cases hx : access k a s with
  | next u => exact ⟨u, rfl, by rwa [hx] at h⟩
  | fault r => rw [hx] at h; cases h
  | refused r => rw [hx] at h; cases h

/-- Accesses in the name of an agent that is over or reads for a READ keep the memory. -/
theorem accesses_of_read_keep_mem {k : Nat} {e : Endian} {o w : Nat} {addrs : List Nat} {s t : State}
    (h : s.flightOf k = none ∨ ∃ f left got, s.flightOf k = some f ∧ f.op = read e o w ∧
      f.phase = .reading left got) (hx : accesses k addrs s = .next t) : t.mem = s.mem := by
  induction addrs generalizing s with
  | nil =>
    cases hx
    rfl
  | cons a as ih =>
    obtain idle | ⟨f, left, got, hf, hop, hp⟩ := h
    · cases (accesses_of_idle k (a :: as) idle).symm.trans hx
      rfl
    · obtain ⟨u, first, rest⟩ := accesses_cons hx
      obtain ⟨same, idle | ⟨left', got', hf'⟩⟩ := access_of_read hf hop hp first
      · exact (ih (.inl idle) rest).trans same
      · exact (ih (.inr ⟨_, left', got', hf', hop, rfl⟩) rest).trans same

/-- Settles O60: a command given changes no byte, nor does an access of a READ, which stays reading
until it is over. -/
theorem startsAndReadsKeepMemory : Obligations.StartsAndReadsKeepMemory := by
  refine ⟨fun _ _ _ _ _ => issue_keeps_mem, fun _ _ _ _ _ _ _ _ => flightOf_of_issue,
    fun _ _ _ _ _ _ _ _ _ _ => access_of_read, fun k c len e o w s t₀ t addrs _ hd hx hxs => ?_⟩
  refine (accesses_of_read_keep_mem (e := e) (o := o) (w := w) ?_ hxs).trans (issue_keeps_mem hx)
  exact (flightOf_of_issue hd hx).imp_right fun ⟨left, hf⟩ => ⟨_, left, [], hf, rfl, rfl⟩

end Sys2Proof.Machine

end

/-! ### An operation of an agent working alone

From its start to its response, with nobody else acting, whatever order its accesses come in: while it
reads, the memory is the one before; while it writes, every byte is the old one or the one that the
instruction run as one step leaves, and the old one only where its write is left; in the end all are
the instruction's, and so is the response (20_memory R31, R33; decision D15). -/

section

namespace Sys2Proof.Machine

open Sys2Proof.Claims

/-- The state after the instruction as one step, its length presented. -/
def State.ran (s : State) (i : Instr) (len : Nat) : State := ({ s with len := len } : State).after i

/-- The response of the instruction as one step. -/
def State.responseOf (s : State) (i : Instr) (len : Nat) : Response where
  rdata := resultOf s.build.hostBig i ((accessPlan s.build.strict i len).map s.mem.read)
  status := statusOf i len

theorem State.ran_responses (s : State) (i : Instr) (len : Nat) :
    (s.ran i len).responses = s.responses ++ [s.responseOf i len] :=
  State.after_responses { s with len := len } i

theorem State.ran_wf {s : State} (h : s.mem.wf = true) (i : Instr) (len : Nat) :
    (s.ran i len).mem.wf = true :=
  State.after_wf { s with len := len } i h

/-- A READ writes nothing back; WRITE and SETBIT write back the bytes the instruction leaves at its
addresses, and have the result 0. -/
theorem writebackOf_cases {s : State} (hwf : s.mem.wf = true) {i : Instr} {len : Nat}
    (hp : accessPlan s.build.strict i len = addressesOf i len) :
    (writebackOf s.build.hostBig i ((addressesOf i len).map s.mem.read) = [] ∧
      (s.ran i len).mem = s.mem) ∨
    (writebackOf s.build.hostBig i ((addressesOf i len).map s.mem.read) =
        (addressesOf i len).map (s.ran i len).mem.read ∧
      ∀ bytes, resultOf s.build.hostBig i bytes = 0) := by
  have left := State.map_read_after { s with len := len } i hwf
  rw [State.accessedBytes] at left
  simp only [hp] at left
  cases i with
  | readL o w | readB o w => exact .inl ⟨rfl, State.afterRead_mem _ _ o w⟩
  | writeL | setbit | writeB | setbitR => exact .inr ⟨left.symm, fun _ => rfl⟩

/-- The states an operation of agent `k` goes through, working alone from a state `s`. -/
inductive WorkingAlone (s : State) (k : Nat) (i : Instr) (len : Nat) : State → Prop where
  /-- What has been read is what memory holds. -/
  | reading (left : List Nat) (got : List Host.Cell)
      (read : ∀ a ∈ addressesOf i len, a ∉ left → byteGot got a = s.mem.read a) :
      WorkingAlone s k i len
        (s.withFlight { inst := k, op := i, len := len, phase := .reading left got })
  /-- Every byte is new, or it is old and its write is left. -/
  | writing (m : Memory) (left : List Host.Cell) (wf : m.wf = true)
      (new : ∀ c ∈ left, c.2 = (s.ran i len).mem.read c.1)
      (landed : ∀ a, m.read a = (s.ran i len).mem.read a ∨
        (m.read a = s.mem.read a ∧ ∃ c ∈ left, c.1 = a))
      (silent : ∀ bytes, resultOf s.build.hostBig i bytes = 0) :
      WorkingAlone s k i len
        (({ s with mem := m } : State).withFlight
          { inst := k, op := i, len := len, phase := .writing left })
  /-- Memory and response are the instruction's. -/
  | done : WorkingAlone s k i len { s with
      mem := (s.ran i len).mem
      answers := s.answers ++ [{ inst := k, response := s.responseOf i len }] }

/-- Settling writes replaces the operation that the agent was at. -/
theorem settleWrites_withFlight (s : State) {g f : Flight} (hg : g.inst = f.inst) (r : Word)
    (left : List Host.Cell) :
    settleWrites (s.withFlight g) f r left = settleWrites s f r left := by
  have dropped := s.dropFlight_withFlight hg
  cases left with
  | nil => exact congrArg (State.answer · f.inst r (statusOf f.op f.len)) dropped
  | cons c cs =>
    exact congrArg (fun t : State => { t with
      inFlight := { f with phase := .writing (c :: cs) } :: t.inFlight }) dropped

/-- Settling reads replaces the operation that the agent was at. -/
theorem settleReads_withFlight (s : State) {g f : Flight} (hg : g.inst = f.inst) (left : List Nat)
    (got : List Host.Cell) :
    settleReads (s.withFlight g) f left got = settleReads s f left got := by
  have dropped := s.dropFlight_withFlight hg
  cases left with
  | nil => exact settleWrites_withFlight s hg _ _
  | cons a as =>
    exact congrArg (fun t : State => { t with
      inFlight := { f with phase := .reading (a :: as) got } :: t.inFlight }) dropped

section

variable {s : State} {k : Nat} {i : Instr} {len : Nat} (hwf : s.mem.wf = true)
  (idle : s.flightOf k = none) (hp : accessPlan s.build.strict i len = addressesOf i len)

include hwf idle

/-- With its writes settled the operation writes on, or all its writes have landed. -/
theorem WorkingAlone.of_settleWrites {m : Memory} (wf : m.wf = true) {left : List Host.Cell}
    (new : ∀ c ∈ left, c.2 = (s.ran i len).mem.read c.1)
    (landed : ∀ a, m.read a = (s.ran i len).mem.read a ∨
      (m.read a = s.mem.read a ∧ ∃ c ∈ left, c.1 = a))
    {r : Word} (result : r = (s.responseOf i len).rdata)
    (silent : left ≠ [] → ∀ bytes, resultOf s.build.hostBig i bytes = 0) (ph : Phase) :
    WorkingAlone s k i len
      (settleWrites { s with mem := m } { inst := k, op := i, len := len, phase := ph } r left) := by
  cases left with
  | nil =>
    have same : m = (s.ran i len).mem := Memory.ext_of_wf wf (State.ran_wf hwf i len) fun a =>
      (landed a).resolve_right fun ⟨_, c, hc, _⟩ => List.not_mem_nil hc
    subst same result
    rw [settleWrites, State.finish_of_idle (s := { s with mem := (s.ran i len).mem })
      (f := { inst := k, op := i, len := len, phase := ph }) idle]
    exact .done
  | cons c cs =>
    rw [settleWrites, State.putFlight_of_idle (s := { s with mem := m })
      (f := { inst := k, op := i, len := len, phase := .writing (c :: cs) }) idle]
    exact .writing m (c :: cs) wf new landed (silent (List.cons_ne_nil c cs))

include hp

/-- With its reads settled the operation reads on, or what it has read fixes the writes and the
response, and these are the instruction's. -/
theorem WorkingAlone.of_settleReads {left : List Nat} {got : List Host.Cell}
    (read : ∀ a ∈ addressesOf i len, a ∉ left → byteGot got a = s.mem.read a) (ph : Phase) :
    WorkingAlone s k i len
      (settleReads s { inst := k, op := i, len := len, phase := ph } left got) := by
  cases left with
  | cons a as =>
    rw [settleReads, State.putFlight_of_idle idle]
    exact .reading (a :: as) got read
  | nil =>
    have bytes : bytesGot { inst := k, op := i, len := len, phase := ph } got =
        (addressesOf i len).map s.mem.read :=
      List.map_congr_left fun a ha => read a ha List.not_mem_nil
    have result : resultOf s.build.hostBig i ((addressesOf i len).map s.mem.read) =
        (s.responseOf i len).rdata := by rw [State.responseOf, hp]
    rw [settleReads, pendingWrites, bytes]
    obtain ⟨nothing, unchanged⟩ | ⟨back, silent⟩ := writebackOf_cases hwf hp
    · rw [nothing, List.zip_nil_right]
      exact .of_settleWrites hwf idle hwf (fun c hc => (List.not_mem_nil hc).elim)
        (fun a => .inl (by rw [unchanged])) result (fun h => absurd rfl h) ph
    · have writes : (addressesOf i len).zip ((addressesOf i len).map (s.ran i len).mem.read) =
          (addressesOf i len).map fun a => (a, (s.ran i len).mem.read a) := by
        rw [← List.zip_map', List.map_id']
      rw [back, writes]
      refine .of_settleWrites hwf idle hwf (fun c hc => ?_) (fun a => ?_) result
        (fun _ => silent) ph
      · obtain ⟨a, -, rfl⟩ := List.mem_map.1 hc
        rfl
      · by_cases ha : a ∈ addressesOf i len
        · exact .inr ⟨rfl, _, List.mem_map_of_mem ha, rfl⟩
        · exact .inl (State.read_after_of_not_mem { s with len := len } i (hp ▸ ha)).symm

/-- Every access of the agent keeps it so. -/
theorem WorkingAlone.access {a : Nat} {t t' : State} (h : WorkingAlone s k i len t)
    (hx : access k a t = .next t') : WorkingAlone s k i len t' := by
  obtain run | ⟨f, hf, ⟨left, got, hph, -, -, run⟩ | ⟨left, b, hph, hab, -, run⟩ | ⟨-, run, -⟩⟩ :=
    access_cases k a t <;> cases run.symm.trans hx
  case inl => exact h
  case inr.inl =>
    cases h with
    | reading left₀ got₀ read =>
      cases (State.flightOf_withFlight s _).symm.trans hf
      cases hph
      rw [settleReads_withFlight s rfl]
      refine .of_settleReads hwf idle hp (fun x hx hx' => ?_) _
      rw [byteGot, Memory.read_cons]
      split
      · next eq => rw [eq]; rfl
      · next ne => exact read x hx fun mem => hx' ((List.mem_erase_of_ne ne).2 mem)
    | writing m left₀ wf new landed silent =>
      cases (State.flightOf_withFlight { s with mem := m } _).symm.trans hf
      cases hph
    | done => cases idle.symm.trans hf
  case inr.inr.inl =>
    cases h with
    | reading left₀ got₀ read =>
      cases (State.flightOf_withFlight s _).symm.trans hf
      cases hph
    | writing m left₀ wf new landed silent =>
      cases (State.flightOf_withFlight { s with mem := m } _).symm.trans hf
      cases hph
      have value : b = (s.ran i len).mem.read a := new (a, b) hab
      have settled := settleWrites_withFlight { s with mem := m.write a b }
        (g := { inst := k, op := i, len := len, phase := .writing left })
        (f := { inst := k, op := i, len := len, phase := .writing left }) rfl 0
        (left.filter fun d => decide (d.1 ≠ a))
      refine (congrArg (WorkingAlone s k i len) settled).mpr ?_
      refine .of_settleWrites hwf idle (Memory.write_wf wf a b)
        (fun c hc => new c (List.mem_of_mem_filter hc)) (fun x => ?_) (silent _).symm
        (fun _ => silent) _
      rw [Memory.read_write wf]
      split
      · next eq => exact .inl (by rw [value, eq])
      · next ne =>
        exact (landed x).imp_right fun ⟨old, c, hc, hcx⟩ =>
          ⟨old, c, List.mem_filter.2 ⟨hc, decide_eq_true (hcx ▸ ne)⟩, hcx⟩
    | done => cases idle.symm.trans hf

theorem WorkingAlone.accesses {addrs : List Nat} {t t' : State} (h : WorkingAlone s k i len t)
    (hx : accesses k addrs t = .next t') : WorkingAlone s k i len t' := by
  induction addrs generalizing t with
  | nil =>
    cases hx
    exact h
  | cons a as ih =>
    obtain ⟨u, first, rest⟩ := accesses_cons hx
    exact ih (WorkingAlone.access hwf idle hp h first) rest

end

/-- An instruction with nothing to access leaves the memory as it is. -/
theorem State.ran_mem_of_no_access {s : State} (hwf : s.mem.wf = true) {i : Instr} {len : Nat}
    (hp : accessPlan s.build.strict i len = []) : (s.ran i len).mem = s.mem :=
  Memory.ext_of_wf (State.ran_wf hwf i len) hwf fun a =>
    State.read_after_of_not_mem (a := a) { s with len := len } i (hp ▸ List.not_mem_nil)

/-- An agent that was given a command and then works alone. -/
theorem workingAlone_of_issue {k : Nat} {c : Descriptor} {len : BitVec 32} {s t₀ t : State}
    {i : Instr} {addrs : List Nat} (hwf : s.mem.wf = true) (idle : s.flightOf k = none)
    (hd : decode c = .ok i) (hx : issue k c len s = .next t₀) (hxs : accesses k addrs t₀ = .next t) :
    WorkingAlone s k i len.toNat t := by
  by_cases hp : accessPlan s.build.strict i len.toNat = []
  · cases (issue_of_no_access idle hd hp).symm.trans hx
    cases (accesses_of_idle k addrs (s := s.answer k 0 (statusOf i len.toNat)) idle).symm.trans hxs
    have response : s.responseOf i len.toNat = { rdata := 0, status := statusOf i len.toNat } := by
      rw [State.responseOf, hp, List.map_nil, resultOf_nil]
    have ended := WorkingAlone.done (s := s) (k := k) (i := i) (len := len.toNat)
    rw [State.ran_mem_of_no_access hwf hp, response] at ended
    exact ended
  · have plan : accessPlan s.build.strict i len.toNat = addressesOf i len.toNat :=
      accessPlan_of_not_suppressed (Bool.not_eq_true _ ▸ mt accessPlan_of_suppressed hp)
    cases (issue_of_access idle hd hp).symm.trans hx
    refine WorkingAlone.accesses hwf idle plan ?_ hxs
    exact .reading _ [] fun a ha left => absurd (plan ▸ ha) left

/-- Settles O56: with no operation in progress, an agent working alone is done. -/
theorem instanceRefinesExec : Obligations.InstanceRefinesExec := by
  intro k c len s t₀ t i addrs hwf idle hd hx hxs ended
  refine ⟨_, _, exec_eq i _, s.ran_responses i len.toNat, ?_⟩
  cases workingAlone_of_issue hwf idle hd hx hxs with
  | reading left got read => cases (State.flightOf_withFlight s _).symm.trans ended
  | writing m left wf new landed silent =>
    cases (State.flightOf_withFlight { s with mem := m } _).symm.trans ended
  | done => exact ⟨rfl, rfl⟩

/-- Settles O58: whatever an agent working alone has got to, every byte is old or new, and the reset
leaves the memory. -/
theorem resetMidOperationOldOrNew : Obligations.ResetMidOperationOldOrNew := by
  intro k c len s t₀ t i addrs hwf idle hd hx hxs
  refine ⟨_, exec_eq i _, fun a => ?_⟩
  rw [State.resetByHost_mem]
  cases workingAlone_of_issue hwf idle hd hx hxs with
  | reading left got read => exact .inl rfl
  | writing m left wf new landed silent => exact (landed a).symm.imp_left And.left
  | done => exact .inr rfl

end Sys2Proof.Machine

end

/-! ### Every operation ends

An access of the first byte an operation has left brings it one access nearer to its end. So the
operations in progress end one after the other, and an agent that makes its plan twice over has
responded (70_reset R139). -/

section

namespace Sys2Proof.Machine

open Sys2Proof.Claims

/-- An operation that reads its next byte has one byte less to read. -/
theorem access_next_read {s : State} {f : Flight} {a : Nat} {as : List Nat} {got : List Host.Cell}
    (hf : s.flightOf f.inst = some f) (hp : f.phase = .reading (a :: as) got) (ha : a < f.len) :
    access f.inst a s = .next (settleReads s f as ((a, s.mem.read a) :: got)) := by
  rw [access, hf]
  simp only [hp]
  rw [if_pos List.mem_cons_self, if_pos ha, List.erase_cons_head]

/-- An operation that writes its next byte has fewer bytes to write. -/
theorem access_next_write {s : State} {f : Flight} {a : Nat} {b : Byte} {cs : List Host.Cell}
    (hf : s.flightOf f.inst = some f) (hp : f.phase = .writing ((a, b) :: cs)) (ha : a < f.len) :
    access f.inst a s = .next (settleWrites { s with mem := s.mem.write a b } f 0
      (cs.filter fun d => decide (d.1 ≠ a))) := by
  rw [access, hf]
  simp only [hp]
  rw [List.find?_cons_of_pos (by simp), List.filter_cons_of_neg (by simp)]
  simp only [if_pos ha]

/-! ### An agent that makes its plan twice over -/

/-- The writes of an operation are none or one for each of its addresses, in their order. -/
theorem pendingWrites_addresses (hostBig : Bool) (f : Flight) (got : List Host.Cell) :
    pendingWrites hostBig f got = [] ∨
      (pendingWrites hostBig f got).map Prod.fst = addressesOf f.op f.len := by
  have zipped (h : (writebackOf hostBig f.op (bytesGot f got)).length = (bytesGot f got).length) :
      (pendingWrites hostBig f got).map Prod.fst = addressesOf f.op f.len := by
    rw [bytesGot, List.length_map] at h
    exact List.map_fst_zip h.ge
  generalize bytesGot f got = bytes at zipped
  cases hop : f.op with
  | readL o w => exact .inl (pendingWrites_of_read (e := .little) hop hostBig got)
  | readB o w => exact .inl (pendingWrites_of_read (e := .big) hop hostBig got)
  | writeL | writeB =>
    rw [hop] at zipped
    exact .inr (zipped (length_writeBytes _ _ _ _ _ _))
  | setbit | setbitR =>
    rw [hop] at zipped
    exact .inr (zipped (List.length_map _))

/-- An agent that reads all it has left to read settles its reads. -/
theorem accesses_reads {s : State} {f : Flight} (idle : s.flightOf f.inst = none) {left : List Nat}
    (inside : ∀ a ∈ left, a < f.len) (got : List Host.Cell) :
    ∃ got', accesses f.inst left (settleReads s f left got) = .next (settleReads s f [] got') := by
  induction left generalizing got with
  | nil => exact ⟨got, rfl⟩
  | cons a as ih =>
    obtain ⟨ha, has⟩ := List.forall_mem_cons.1 inside
    obtain ⟨got', rest⟩ := ih has ((a, s.mem.read a) :: got)
    have first := access_next_read (s.flightOf_withFlight { f with phase := .reading (a :: as) got })
      rfl ha
    rw [settleReads_withFlight s (f := { f with phase := .reading (a :: as) got }) rfl] at first
    refine ⟨got', ?_⟩
    rw [settleReads, State.putFlight_of_idle (f := { f with phase := .reading (a :: as) got }) idle,
      accesses, first]
    exact rest

/-- An agent that writes all it has left to write is over. -/
theorem accesses_writes {s : State} {f : Flight} (idle : s.flightOf f.inst = none) (r : Word)
    {left : List Host.Cell} (inside : ∀ c ∈ left, c.1 < f.len)
    (distinct : (left.map Prod.fst).Nodup) :
    ∃ t, accesses f.inst (left.map Prod.fst) (settleWrites s f r left) = .next t ∧
      t.flightOf f.inst = none := by
  induction left generalizing s r with
  | nil => exact ⟨_, rfl, s.flightOf_finish f r⟩
  | cons c cs ih =>
    obtain ⟨a, b⟩ := c
    obtain ⟨ha, hcs⟩ := List.forall_mem_cons.1 inside
    rw [List.map_cons, List.nodup_cons] at distinct
    obtain ⟨fresh, distinct⟩ := distinct
    have others : (cs.filter fun d => decide (d.1 ≠ a)) = cs :=
      List.filter_eq_self.2 fun d hd =>
        decide_eq_true fun eq => fresh (List.mem_map.2 ⟨d, hd, eq⟩)
    have first := access_next_write
      (s.flightOf_withFlight { f with phase := .writing ((a, b) :: cs) }) rfl ha
    have settled := settleWrites_withFlight { s with mem := s.mem.write a b }
      (g := { f with phase := .writing ((a, b) :: cs) })
      (f := { f with phase := .writing ((a, b) :: cs) }) rfl 0 cs
    obtain ⟨t, rest, ended⟩ := ih (s := { s with mem := s.mem.write a b }) idle 0 hcs distinct
    refine ⟨t, ?_, ended⟩
    rw [settleWrites, State.putFlight_of_idle (f := { f with phase := .writing ((a, b) :: cs) }) idle,
      List.map_cons, accesses, first, others]
    exact (congrArg (accesses f.inst (cs.map Prod.fst)) settled).trans rest

/-- An agent that makes its addresses twice over, a read and a write, is over. -/
theorem accesses_twice {s : State} {f : Flight} (idle : s.flightOf f.inst = none) :
    ∃ t, accesses f.inst (addressesOf f.op f.len ++ addressesOf f.op f.len)
        (settleReads s f (addressesOf f.op f.len) []) = .next t ∧ t.flightOf f.inst = none := by
  obtain ⟨got, reads⟩ := accesses_reads idle (fun a => addressesOf_lt) []
  rw [accesses_append _ _ _ reads, settleReads]
  obtain nothing | addresses := pendingWrites_addresses s.build.hostBig f got
  · rw [nothing]
    exact ⟨_, accesses_of_idle _ _ (s.flightOf_finish f _), s.flightOf_finish f _⟩
  · have inside := fun c hc => addressesOf_lt (pendingWrites_mem (hostBig := s.build.hostBig)
      (f := f) (got := got) (c := c) hc)
    have distinct := addressesOf_nodup f.op f.len
    rw [← addresses] at distinct ⊢
    exact accesses_writes idle _ inside distinct

/-- A free agent that takes a command and makes its plan twice over has responded. -/
theorem issue_finishes {k : Nat} {c : Descriptor} {len : BitVec 32} {s : State} {i : Instr}
    (idle : s.flightOf k = none) (hd : decode c = .ok i) :
    ∃ t₀ t, issue k c len s = .next t₀ ∧
      accesses k (accessPlan s.build.strict i len.toNat ++ accessPlan s.build.strict i len.toNat) t₀ =
        .next t ∧ t.flightOf k = none := by
  by_cases hp : accessPlan s.build.strict i len.toNat = []
  · exact ⟨_, _, issue_of_no_access idle hd hp, accesses_of_idle k _ idle, idle⟩
  · have plan : accessPlan s.build.strict i len.toNat = addressesOf i len.toNat :=
      accessPlan_of_not_suppressed (Bool.not_eq_true _ ▸ mt accessPlan_of_suppressed hp)
    obtain ⟨t, twice, ended⟩ := accesses_twice (f := newFlight k i len.toNat []) idle
    refine ⟨_, t, issue_of_access idle hd hp, ?_, ended⟩
    rw [plan] at hp ⊢
    exact settleReads_newFlight idle i len.toNat [] hp ▸ twice

/-! ### Running on to the end -/

/-- The fields of the block's own that operations of agents leave. -/
def SameBlock (s t : State) : Prop :=
  t.queue = s.queue ∧ t.len = s.len ∧ t.scr = s.scr ∧ t.responses = s.responses ∧ t.build = s.build

theorem SameBlock.trans {s t u : State} (h : SameBlock s t) (h' : SameBlock t u) : SameBlock s u := by
  obtain ⟨hqueue, hlen, hscr, hresponses, hbuild⟩ := h
  obtain ⟨hqueue', hlen', hscr', hresponses', hbuild'⟩ := h'
  exact ⟨hqueue'.trans hqueue, hlen'.trans hlen, hscr'.trans hscr, hresponses'.trans hresponses,
    hbuild'.trans hbuild⟩

/-- An access leaves the fields of the block's own. -/
theorem sameBlock_of_access {k a : Nat} {s t : State} (h : access k a s = .next t) :
    SameBlock s t := by
  obtain ⟨-, hlen, hscr, hresponses, hqueue, hbuild, -⟩ := instanceAccessFrame k a s t h
  exact ⟨hqueue, hlen, hscr, hresponses, hbuild⟩

/-- What going on does to the operation `f` in front of `fs`: it is one access nearer to its end, or it
has answered and is gone. -/
def GoesOn (s : State) (f : Flight) (fs : List Flight) (t : State) : Prop :=
  (∃ f', t.inFlight = f' :: fs ∧ f'.inst = f.inst ∧ accessesLeft f' < accessesLeft f ∧
    t.answers = s.answers) ∨
  (t.inFlight = fs ∧ ∃ r, t.answers = s.answers ++ [{ inst := f.inst, response := r }])

/-- With one operation an agent, those of the others than the one in front are those behind it. -/
theorem others_of_front {f : Flight} {fs : List Flight} (h : ((f :: fs).map Flight.inst).Nodup) :
    ((f :: fs).filter fun g => decide (g.inst ≠ f.inst)) = fs := by
  rw [List.map_cons, List.nodup_cons] at h
  obtain ⟨fresh, -⟩ := h
  rw [List.filter_cons_of_neg (by simp)]
  exact List.filter_eq_self.2 fun g hg => decide_eq_true fun eq => fresh (eq ▸ List.mem_map_of_mem hg)

/-- An operation with fewer writes left than it had accesses goes on. -/
theorem GoesOn.of_settleWrites {s : State} {f : Flight} {fs : List Flight} (hf : s.inFlight = f :: fs)
    (distinct : (s.inFlight.map Flight.inst).Nodup) (r : Word) {left : List Host.Cell}
    (fewer : left.length < accessesLeft f) : GoesOn s f fs (settleWrites s f r left) := by
  have flights := settleWrites_inFlight s f r left
  have answers := settleWrites_answers s f r left
  rw [hf, others_of_front (hf ▸ distinct)] at flights
  by_cases hn : left = []
  · rw [if_pos hn] at flights answers
    exact .inr ⟨flights, _, answers⟩
  · rw [if_neg hn] at flights answers
    exact .inl ⟨_, flights, rfl, fewer, answers⟩

/-- From the invariant a step with no act queued lets the operation in front go on. -/
theorem State.Inv.step_goesOn {s : State} (h : s.Inv) (hq : s.queue = []) {f : Flight}
    {fs : List Flight} (hf : s.inFlight = f :: fs) :
    ∃ t, step s = .next t ∧ SameBlock s t ∧ GoesOn s f fs t := by
  obtain ⟨-, -, -, inside, distinct⟩ := h
  have inside := inside f (hf ▸ List.mem_cons_self)
  obtain ⟨a, go, ⟨as, got, hp⟩ | ⟨b, cs, hp⟩⟩ := advance_of_inside hf inside
  · obtain ⟨-, -, within⟩ := (Flight.inside_of_reading hp).1 inside
    have run := access_next_read (State.flightOf_front hf) hp (within a List.mem_cons_self)
    refine ⟨_, (step_of_queue_nil hq).trans (go.trans run), sameBlock_of_access run, ?_⟩
    have reads : accessesLeft f = as.length + 1 + 5 := by
      rw [accessesLeft, hp]
      rfl
    cases as with
    | nil =>
      have few := pendingWrites_length_le s.build.hostBig f ((a, s.mem.read a) :: got)
      exact .of_settleWrites hf distinct _ (by rw [reads, List.length_nil]; omega)
    | cons x xs =>
      have flights := settleReads_inFlight s f (x :: xs) ((a, s.mem.read a) :: got)
      rw [if_neg (List.cons_ne_nil x xs), hf, others_of_front (hf ▸ distinct)] at flights
      refine .inl ⟨_, flights, rfl, ?_, rfl⟩
      rw [reads, accessesLeft]
      exact Nat.add_lt_add_right (Nat.lt_succ_self _) 5
  · obtain ⟨-, -, within⟩ := (Flight.inside_of_writing hp).1 inside
    have run := access_next_write (State.flightOf_front hf) hp (within _ List.mem_cons_self)
    refine ⟨_, (step_of_queue_nil hq).trans (go.trans run), sameBlock_of_access run, ?_⟩
    have fewer : (cs.filter fun d => decide (d.1 ≠ a)).length < accessesLeft f := by
      rw [accessesLeft, hp]
      exact Nat.lt_succ_of_le (List.length_filter_le _ cs)
    exact GoesOn.of_settleWrites (s := { s with mem := s.mem.write a b }) hf distinct 0 fewer

/-- An operation inside its buffer has an access left. -/
theorem accessesLeft_pos {f : Flight} (h : f.inside = true) : 0 < accessesLeft f := by
  unfold accessesLeft
  split
  · exact Nat.succ_pos _
  · next left hp =>
    obtain ⟨-, some_left, -⟩ := (Flight.inside_of_writing hp).1 h
    exact List.length_pos_iff.2 some_left

/-- Going on leaves fewer accesses in all. -/
theorem GoesOn.fewer_left {s t : State} {f : Flight} {fs : List Flight} (h : GoesOn s f fs t)
    (pos : 0 < accessesLeft f) :
    (t.inFlight.map accessesLeft).sum < ((f :: fs).map accessesLeft).sum := by
  rw [List.map_cons, List.sum_cons]
  obtain ⟨f', flights, -, fewer, -⟩ | ⟨flights, -⟩ := h
  · rw [flights, List.map_cons, List.sum_cons]
    omega
  · rw [flights]
    omega

/-- If after going on every operation in progress answers once, in their order, then so does every one
that was in progress before. -/
theorem GoesOn.answered_once {s t u : State} {f : Flight} {fs : List Flight} (h : GoesOn s f fs t)
    (later : ∃ new, u.answers = t.answers ++ new ∧
      new.map Answer.inst = t.inFlight.map Flight.inst) :
    ∃ new, u.answers = s.answers ++ new ∧ new.map Answer.inst = (f :: fs).map Flight.inst := by
  obtain ⟨new, hnew, insts⟩ := later
  obtain ⟨f', flights, inst, -, answers⟩ | ⟨flights, r, answers⟩ := h
  · exact ⟨new, answers ▸ hnew, by rw [insts, flights, List.map_cons, List.map_cons, inst]⟩
  · refine ⟨{ inst := f.inst, response := r } :: new, ?_, ?_⟩
    · rw [hnew, answers, List.append_assoc, List.singleton_append]
    · rw [List.map_cons, insts, flights, List.map_cons]

/-- From the invariant, with no act queued, the operations in progress end within the accesses they
have left, each with one answer, in their order. -/
theorem State.Inv.runs_to_end {s : State} (h : s.Inv) (hq : s.queue = []) :
    ∃ n t, n ≤ (s.inFlight.map accessesLeft).sum ∧ Sys2Proof.core.run n s = .next t ∧
      t.inFlight = [] ∧ (∃ new, t.answers = s.answers ++ new ∧
        new.map Answer.inst = s.inFlight.map Flight.inst) ∧ SameBlock s t := by
  generalize hm : (s.inFlight.map accessesLeft).sum = m
  induction m using Nat.strong_induction_on generalizing s with
  | _ m ih =>
    subst hm
    cases hf : s.inFlight with
    | nil =>
      exact ⟨0, s, Nat.zero_le _, rfl, hf, ⟨[], (List.append_nil _).symm, rfl⟩, rfl, rfl, rfl, rfl,
        rfl⟩
    | cons f fs =>
      obtain ⟨u, run, same, goes⟩ := h.step_goesOn hq hf
      have hu := stepKeepsInvariant s u h run
      have hqu : u.queue = [] := by
        obtain ⟨hqueue, -⟩ := same
        exact hqueue.trans hq
      have pos : 0 < accessesLeft f := by
        obtain ⟨-, -, -, inside, -⟩ := id h
        exact accessesLeft_pos (inside f (hf ▸ List.mem_cons_self))
      have fewer := goes.fewer_left pos
      obtain ⟨n, t, bound, runs, none_left, answered, same'⟩ := ih _ (hf ▸ fewer) hu hqu rfl
      exact ⟨n + 1, t, bound.trans_lt fewer, (core_run_succ n run).trans runs, none_left,
        goes.answered_once answered, same.trans same'⟩

theorem length_accessPlan_le (strict : Bool) (i : Instr) (len : Nat) :
    (accessPlan strict i len).length ≤ 5 := by
  unfold accessPlan
  split
  · exact Nat.zero_le 5
  · exact addressesOf_length_le i len

/-- Settles O57: the operations in progress run on to their ends, and a plan made twice over is at most
ten accesses, after which the agent has responded. -/
theorem instanceFinishes : Obligations.InstanceFinishes := by
  refine ⟨fun s h hq => ?_, fun k c len s i idle hd => ⟨?_, issue_finishes idle hd⟩⟩
  · obtain ⟨n, t, bound, run, none_left, answered, hqueue, rest⟩ := h.runs_to_end hq
    exact ⟨n, t, bound, run, none_left, answered, hqueue.trans hq, rest⟩
  · have five := length_accessPlan_le s.build.strict i len.toNat
    rw [List.length_append]
    omega

end Sys2Proof.Machine

end
